-- ==== Sys2Proof/Word.lean ====
section
/-! DEFINITION. The three widths of spec/00_scope.md R7 and R10: u8, u16 and u32. -/

namespace Sys2Proof

/-- A u8 (R10): a byte of memory or of an instruction. -/
abbrev Byte := BitVec 8

/-- A u16 (R10): a segment register, or the frame size of `enter`. -/
abbrev Half := BitVec 16

/-- A u32 (R10): a general register, eip, a guest address, an extended immediate. `+` and `-` wrap modulo 2^32. -/
abbrev Word := BitVec 32

end Sys2Proof
end

