-- ==== Sys2Proof/Machine/Bits.lean ====
section
/-! DEFINITION. Byte order, slices and extensions: the notation of spec/00_scope.md R11, used by the decoder and by memory. -/

namespace Sys2Proof

/-- `v[8k+7:8k]` (R11). -/
def byteOf (v : Word) (k : Nat) : Byte := v.extractLsb' (8 * k) 8

/-- The low (`k = 0`) or high (`k = 1`) byte of a u16. -/
def halfByte (v : Half) (k : Nat) : Byte := v.extractLsb' (8 * k) 8

/-- Four bytes read little-endian: `{b3, b2, b1, b0}` (R11, R78, R111). -/
def leWord (b0 b1 b2 b3 : Byte) : Word := b3 ++ b2 ++ b1 ++ b0

/-- Two bytes read little-endian (R111, R118: iw). -/
def leHalf (b0 b1 : Byte) : Half := b1 ++ b0

/-- The four bytes of a u32, least significant first (R74, R111). -/
def leBytes (v : Word) : List Byte := [byteOf v 0, byteOf v 1, byteOf v 2, byteOf v 3]

/-- `sext_32` of a byte (R11). -/
def sext8 (b : Byte) : Word := b.signExtend 32

/-- `zext_32` of a byte (R11). -/
def zext8 (b : Byte) : Word := b.setWidth 32

/-- `zext_32` of a u16 (R11). -/
def zext16 (h : Half) : Word := h.setWidth 32

end Sys2Proof
end

