-- ==== Sys2Proof/Config.lean ====
section
/-! DEFINITION. The named parameters of spec/00_scope.md R8 that a construction of the machine fixes: the four policies
and the import table's entries. `HANDLER_SEM`, the one parameter about the whole machine, is the bodiless
`Sys2Proof.Config.handlerSem` of Sys2Proof/Machine/Handler.lean, because its type names State. -/

namespace Sys2Proof

/-- `EA_BASE_POLICY` (R8, R84): how a base register enters an effective address. -/
inductive EaBasePolicy where
  | add
  | ignore
  | violation
deriving DecidableEq, Repr

/-- The two values of `PUSH_IMM8_EXT` and of `AND_IMM8_EXT` (R8): how an imm8 becomes a u32. -/
inductive ImmExt where
  | sign
  | zero
deriving DecidableEq, Repr

/-- `ENTER_LEVEL_POLICY` (R8, R128): what the decoder does with an `enter` whose nesting level is not 0. -/
inductive EnterLevelPolicy where
  | ignore
  | unsupported
deriving DecidableEq, Repr

/-- The four policy parameters of R8. -/
structure Policies where
  eaBase      : EaBasePolicy
  pushImm8Ext : ImmExt
  andImm8Ext  : ImmExt
  enterLevel  : EnterLevelPolicy
deriving DecidableEq, Repr

/-- The policies at the values R8 gives ("value in this spec"). -/
def Policies.spec : Policies where
  eaBase := .add
  pushImm8Ext := .sign
  andImm8Ext := .zero
  enterLevel := .ignore

/-- The name of a host handler, the `h` of `Handler(h)` (R47). DESIGN CHOICE (safe): a natural number. -/
abbrev HandlerId := Nat

/-- What an entry of the import table holds (R47, R223). `Absent` is having no entry. -/
inductive ImportBinding where
  | handler (h : HandlerId)
  | unhandled
deriving DecidableEq, Repr

/-- `IMPORTS` (R47): the bindings the host registered, keyed by the value held in a slot. -/
abbrev ImportTable := List (Word × ImportBinding)

namespace Config

/-- The bound on `MEM_SIZE` (R8): 2^32. -/
def maxMemSize : Nat := 0x100000000

/-- What a byte of memory that no entry lists reads as. DESIGN CHOICE (unsafe, log entry 3): `MEM_INIT` is open. -/
def unlistedByte : Byte := 0#8

end Config

end Sys2Proof
end

