-- ==== Sys2Proof/Syntax.lean ====
section
/-! DEFINITION. The eighteen instruction forms of spec/30_encoding.md R123, one constructor for each row of
spec/opcode_table.json. A memory operand keeps the addressing form it was encoded with (the rows of R114), so that
each accepted byte string is one term and its length (R122) is a function of the term. -/

namespace Sys2Proof

/-- The eight general registers in their encoding order (R30, R112). -/
inductive Reg32 where
  | eax
  | ecx
  | edx
  | ebx
  | esp
  | ebp
  | esi
  | edi
deriving DecidableEq, Repr

/-- A SIB byte with a base register (R115): scale field, index (`none` is index = 100) and base. -/
structure Sib where
  ss    : BitVec 2
  index : Option Reg32
  base  : Reg32
deriving DecidableEq, Repr

/-- A ModRM memory operand, one constructor for each encoded form of R114 and R115. -/
inductive MemOperand where
  /-- mod = 00, rm a register: `[B]`. -/
  | base (b : Reg32)
  /-- mod = 00, rm = 101: `[disp32]`. -/
  | disp32 (d : Word)
  /-- mod = 01, no SIB: `[B + disp8]`. -/
  | baseDisp8 (b : Reg32) (d : Byte)
  /-- mod = 10, no SIB: `[B + disp32]`. -/
  | baseDisp32 (b : Reg32) (d : Word)
  /-- mod = 00, SIB with a base: `[B + I]`. -/
  | sib (x : Sib)
  /-- mod = 00, SIB with base field 101, which means no base: `[I + disp32]`. -/
  | sibNoBase (ss : BitVec 2) (index : Option Reg32) (d : Word)
  /-- mod = 01, SIB: `[B + I + disp8]`. -/
  | sibDisp8 (x : Sib) (d : Byte)
  /-- mod = 10, SIB: `[B + I + disp32]`. -/
  | sibDisp32 (x : Sib) (d : Word)
deriving DecidableEq, Repr

/-- The index register of a memory operand, `none` for NONE (R114, R115). -/
def MemOperand.index : MemOperand → Option Reg32
  | .base _ => none
  | .disp32 _ => none
  | .baseDisp8 _ _ => none
  | .baseDisp32 _ _ => none
  | .sib x => x.index
  | .sibNoBase _ i _ => i
  | .sibDisp8 x _ => x.index
  | .sibDisp32 x _ => x.index

/-- The eighteen forms (R123). -/
inductive Instr where
  /-- `enter imm16, imm8` (R193): frame size and nesting level. -/
  | enter (frame : Half) (level : Byte)
  /-- `call rel32` (R221). -/
  | callRel32 (rel : Word)
  /-- `call dword ptr [mem]` (R222). -/
  | callM32 (m : MemOperand)
  /-- `ret` (R228). -/
  | ret
  /-- `jmp rel32` (R229). -/
  | jmpRel32 (rel : Word)
  /-- `push imm8` (R194). -/
  | pushImm8 (imm : Byte)
  /-- `push imm32` (R195). -/
  | pushImm32 (imm : Word)
  /-- `push r32` (R196). -/
  | pushR32 (r : Reg32)
  /-- `push dword ptr [mem]` (R197). -/
  | pushM32 (m : MemOperand)
  /-- `pop r32` (R198). -/
  | popR32 (r : Reg32)
  /-- `mov dword ptr [mem], imm32` (R250). -/
  | movM32Imm32 (m : MemOperand) (imm : Word)
  /-- `mov [moffs32], eax` (R251). -/
  | movMoffs32Eax (moffs : Word)
  /-- `mov eax, [moffs32]` (R252). -/
  | movEaxMoffs32 (moffs : Word)
  /-- `mov r32(rm), r32(reg)` (R253, opcode 89): the destination is the rm field. -/
  | movRm32R32 (dst src : Reg32)
  /-- `mov r32(reg), r32(rm)` (R254, opcode 8B): the destination is the reg field. -/
  | movR32Rm32 (dst src : Reg32)
  /-- `and r32, imm8` (R281). -/
  | andR32Imm8 (r : Reg32) (imm : Byte)
  /-- `sub r32, imm32` (R282). -/
  | subR32Imm32 (r : Reg32) (imm : Word)
  /-- `lea r32, [mem]` (R255). -/
  | leaR32M (dst : Reg32) (m : MemOperand)
deriving DecidableEq, Repr

end Sys2Proof
end

