-- ==== Sys2Proof/Machine/State.lean ====
section
/-! DEFINITION. The machine's state (spec/10_state.md), the outcomes of a step (spec/40_step_pipeline.md R161,
spec/60_exceptions.md R300) and the state after construction (R51, R340). -/

namespace Sys2Proof.Machine

/-- The eight general registers (R30), in encoding order. -/
structure GprFile where
  eax : Word
  ecx : Word
  edx : Word
  ebx : Word
  esp : Word
  ebp : Word
  esi : Word
  edi : Word
deriving DecidableEq, Repr, Inhabited

/-- The six segment registers (R43). -/
structure SegFile where
  cs : Half
  ds : Half
  es : Half
  fs : Half
  gs : Half
  ss : Half
deriving DecidableEq, Repr, Inhabited

/-- Guest memory (R70): `MEM_SIZE` and the listed bytes. A byte that is not listed reads as `Config.unlistedByte`. -/
structure Memory where
  size  : Nat
  cells : List Host.Cell
deriving DecidableEq, Repr

/-- The canonical form of memory: at most 2^32 bytes (R8), addresses strictly rising and below `MEM_SIZE`, and no entry
equal to what an unlisted byte reads as. -/
abbrev Memory.wf (m : Memory) : Prop :=
  m.size ≤ Config.maxMemSize ∧ m.cells.Pairwise (fun c d => c.1 < d.1) ∧
    ∀ c ∈ m.cells, c.1 < m.size ∧ c.2 ≠ Config.unlistedByte

/-- The kinds of contract violation (R161, R303). -/
inductive ViolationKind where
  /-- A SIB scale field that is not 00 (R85). -/
  | scaleNotOne
  /-- A base register under `EA_BASE_POLICY = violation` (R84). -/
  | baseRegister
  /-- A host `get` or `set` with an unsupported identifier (R38). -/
  | unsupportedRegister
deriving DecidableEq, Repr

/-- Why a machine is halted (R48). -/
inductive HaltReason where
  | contractViolation (k : ViolationKind)
  | hostFailure (h : HandlerId)
deriving DecidableEq, Repr

/-- `status` (R48). -/
inductive Status where
  | running
  | halted (r : HaltReason)
deriving DecidableEq, Repr

/-- An event of `diag` (R49). -/
inductive DiagEvent where
  | unimplementedImport (slot target : Word)
deriving DecidableEq, Repr

/-- The kind of a failing access (R161). -/
inductive AccessKind where
  | fetch
  | read
  | write
deriving DecidableEq, Repr

/-- The width of a failing access: 1 or 4 bytes (R161). -/
inductive AccessWidth where
  | byte
  | dword
deriving DecidableEq, Repr

/-- What a failure primitive raises (R14, R161): every outcome of a step but Ok. -/
inductive Raise where
  | unsupportedInstruction (start : Word) (bytes : List Byte)
  | memoryFault (addr : Word) (width : AccessWidth) (kind : AccessKind)
  | contractViolation (k : ViolationKind)
  | hostFailure (h : HandlerId)
deriving DecidableEq, Repr

/-- The Machine (the record at the head of spec/10_state.md), with the policy parameters of R8, which a step takes as
arguments and never changes, and one field of the model's own, `handlerDraw`. -/
structure State where
  gpr         : GprFile
  eip         : Word
  seg         : SegFile
  mem         : Memory
  loadBase    : Word
  imports     : ImportTable
  policies    : Policies
  status      : Status
  diag        : List DiagEvent
  /-- The MODEL'S OWN: how many handlers were invoked. It feeds the free value `Config.handlerSem` (log entry 7). -/
  handlerDraw : Nat
deriving DecidableEq, Repr

/-- How a step ends other than with Ok (R161, R300). Each fault carries the record the spec gives it and the Machine as
the step left it (R168, R308), from which the host may go on (R309). -/
inductive Fault where
  /-- Raised by stage 1 of a step when the bytes at eip are none of the eighteen forms (R165, R301). Safe: the spec's
  own outcome; `left` is the state before the step. -/
  | unsupportedInstruction (start : Word) (bytes : List Byte) (left : State)
  /-- Raised by any fetch, read or write outside `MEM_SIZE` (R164, R302). Safe: the spec's own outcome; `left` keeps
  every write made before it. -/
  | memoryFault (addr : Word) (width : AccessWidth) (kind : AccessKind) (left : State)
  /-- Raised by an effective address (R84, R85), and again by every step of the machine it halted (R162). Safe: the
  spec's own outcome. -/
  | contractViolation (k : ViolationKind) (left : State)
  /-- Raised by call [mem] when a handler fails (R226), and again by every step of the machine it halted (R162). Safe:
  the spec's own outcome; what the handler left is free. -/
  | hostFailure (h : HandlerId) (left : State)
deriving DecidableEq, Repr

/-- Why an instruction has no meaning here. -/
inductive Refusal where
  /-- Raised by an arm of exec whose instruction has no meaning yet; no arm does. Safe: nothing is claimed of it. -/
  | notModelled (mnemonic : String)
deriving DecidableEq, Repr

/-- The machine right after construction (R51, R340): registers 0, Running, no diagnostics. The loader's parameters,
which R8 leaves open, take one value each: `MEM_SIZE` 2^32, `MEM_INIT` nothing listed, `LOAD_BASE` 0, `IMPORTS` empty
(DESIGN CHOICE, unsafe, log entries 2 to 5), and the policies the values of R8. For every other value of the
parameters see `construct`. -/
def State.reset : State where
  gpr := ⟨0#32, 0#32, 0#32, 0#32, 0#32, 0#32, 0#32, 0#32⟩
  eip := 0#32
  seg := ⟨0#16, 0#16, 0#16, 0#16, 0#16, 0#16⟩
  mem := ⟨Config.maxMemSize, []⟩
  loadBase := 0#32
  imports := []
  policies := Policies.spec
  status := .running
  diag := []
  handlerDraw := 0

end Sys2Proof.Machine
end

