-- ==== Sys2Proof/Machine/Ops.lean ====
section
/-! DEFINITION. The named operations over registers, memory and outcomes: general registers (spec/10_state.md R36, R37),
the memory primitives (spec/20_memory.md R72 to R75), raising and taking an outcome (spec/40_step_pipeline.md R168 to
R170, spec/60_exceptions.md R308, R309) and the stack primitives (spec/41_stack.md R190, R191). -/

namespace Sys2Proof.Machine

/-! ### Registers -/

/-- `x[r]` (R12, R30). -/
def GprFile.get (g : GprFile) : Reg32 → Word
  | .eax => g.eax
  | .ecx => g.ecx
  | .edx => g.edx
  | .ebx => g.ebx
  | .esp => g.esp
  | .ebp => g.ebp
  | .esi => g.esi
  | .edi => g.edi

/-- `x[r] <- v` (R12, R30). -/
def GprFile.set (g : GprFile) (r : Reg32) (v : Word) : GprFile :=
  match r with
  | .eax => { g with eax := v }
  | .ecx => { g with ecx := v }
  | .edx => { g with edx := v }
  | .ebx => { g with ebx := v }
  | .esp => { g with esp := v }
  | .ebp => { g with ebp := v }
  | .esi => { g with esi := v }
  | .edi => { g with edi := v }

/-- `x[r]` of the machine. -/
def State.reg (s : State) (r : Reg32) : Word := s.gpr.get r

/-- `x[r]` for a register or NONE, which reads as 0 (R37). -/
def State.regOrNone (s : State) : Option Reg32 → Word
  | none => 0#32
  | some r => s.reg r

/-- `x[r] <- v` of the machine. -/
def State.setReg (s : State) (r : Reg32) (v : Word) : State := { s with gpr := s.gpr.set r v }

/-- `eip <- v`. -/
def State.setEip (s : State) (v : Word) : State := { s with eip := v }

/-- Replace the six segment registers (a host's direct field access, R173). -/
def State.setSeg (s : State) (g : SegFile) : State := { s with seg := g }

/-- Replace guest memory. -/
def State.setMem (s : State) (m : Memory) : State := { s with mem := m }

/-- `load_base <- v`, the host's alone (R46). -/
def State.setLoadBase (s : State) (v : Word) : State := { s with loadBase := v }

/-- `status <- v` (R169, R170). -/
def State.setStatus (s : State) (v : Status) : State := { s with status := v }

/-- Append an event to `diag` (R49). -/
def State.emit (s : State) (e : DiagEvent) : State := { s with diag := s.diag ++ [e] }

/-! ### Memory -/

/-- The listed byte at `a`, or what an unlisted byte reads as. -/
def cellAt : List Host.Cell → Nat → Byte
  | [], _ => Config.unlistedByte
  | c :: cs, a => if c.1 = a then c.2 else cellAt cs a

/-- Put an entry in its place among rising addresses. -/
def insertCell (a : Nat) (v : Byte) : List Host.Cell → List Host.Cell
  | [] => [(a, v)]
  | c :: cs => if a < c.1 then (a, v) :: c :: cs else c :: insertCell a v cs

/-- Take out every entry of an address. -/
def eraseCell (a : Nat) : List Host.Cell → List Host.Cell
  | [] => []
  | c :: cs => if c.1 = a then eraseCell a cs else c :: eraseCell a cs

/-- Write one byte, keeping the canonical form: writing what an unlisted byte reads as removes the entry. -/
def setCell (a : Nat) (v : Byte) (cs : List Host.Cell) : List Host.Cell :=
  if v = Config.unlistedByte then eraseCell a cs else insertCell a v (eraseCell a cs)

/-- `mem[a]`. -/
def Memory.byte (m : Memory) (a : Nat) : Byte := cellAt m.cells a

/-- `mem[a] <- v`. -/
def Memory.setByte (m : Memory) (a : Nat) (v : Byte) : Memory := { m with cells := setCell a v m.cells }

/-- `InBounds(a, n)` in natural arithmetic (R72). -/
abbrev Memory.inBounds (m : Memory) (a n : Nat) : Prop := a + n ≤ m.size

/-- The four bytes at `a`, little-endian (R73). -/
def Memory.read32 (m : Memory) (a : Nat) : Word :=
  leWord (m.byte a) (m.byte (a + 1)) (m.byte (a + 2)) (m.byte (a + 3))

/-- The four bytes of `v` to `a`, little-endian (R74). -/
def Memory.write32 (m : Memory) (a : Nat) (v : Word) : Memory :=
  (((m.setByte a (byteOf v 0)).setByte (a + 1) (byteOf v 1)).setByte (a + 2) (byteOf v 2)).setByte (a + 3) (byteOf v 3)

/-- The memory of `size` bytes that holds the listed bytes, in canonical form. Of two entries for one address the later
counts; entries at or above `size` are dropped. -/
def Memory.ofCells (size : Nat) (cells : List Host.Cell) : Memory :=
  cells.foldl (fun m c => if c.1 < size then m.setByte c.1 c.2 else m) ⟨size, []⟩

/-- `FetchByte(a)` (R75): `none` when `a` is out of bounds. -/
def Memory.fetchByte (m : Memory) (a : Word) : Option Byte :=
  if m.inBounds a.toNat 1 then some (m.byte a.toNat) else none

/-! ### Raising and taking an outcome -/

/-- How a primitive or a rule ends: with a value, or with a raise. The state keeps every write made so far (R14, R168). -/
inductive Res (α : Type) where
  | done (v : α) (s : State)
  | raised (r : Raise) (s : State)
deriving Repr

/-- Go on after a primitive that completed; a raise ends the rule (R14). -/
def Res.andThen {α β : Type} (x : Res α) (f : α → State → Res β) : Res β :=
  match x with
  | .done v s => f v s
  | .raised r s => .raised r s

/-- What raising an outcome does to the machine: a contract violation and a host failure halt it (R169, R170), the other
two leave `status` Running (R171). Nothing is saved, no mode changes and no vector is read (R308). -/
def raiseLeft (r : Raise) (s : State) : State :=
  match r with
  | .unsupportedInstruction _ _ => s
  | .memoryFault _ _ _ => s
  | .contractViolation k => s.setStatus (.halted (.contractViolation k))
  | .hostFailure h => s.setStatus (.halted (.hostFailure h))

/-- The typed failure of an outcome with the machine it leaves (R161). -/
def Raise.fault (r : Raise) (left : State) : Fault :=
  match r with
  | .unsupportedInstruction start bytes => .unsupportedInstruction start bytes left
  | .memoryFault a w k => .memoryFault a w k left
  | .contractViolation k => .contractViolation k left
  | .hostFailure h => .hostFailure h left

/-- TAKING AN EXCEPTION: the one operation by which a step ends with an outcome other than Ok. No outcome transfers
control inside the guest; the typed failure goes to the host with the Machine as left (R168 to R170, R308). -/
def takeRaise (r : Raise) (s : State) : Host.Outcome State Fault Refusal := .fault (r.fault (raiseLeft r s))

/-- The outcome a fault reports (R161). -/
def Fault.raise : Fault → Raise
  | .unsupportedInstruction start bytes _ => .unsupportedInstruction start bytes
  | .memoryFault a w k _ => .memoryFault a w k
  | .contractViolation k _ => .contractViolation k
  | .hostFailure h _ => .hostFailure h

/-- RETURNING FROM AN EXCEPTION: there is no instruction for it; the host calls `step()` again on the Machine the
outcome left (R309). -/
def Fault.left : Fault → State
  | .unsupportedInstruction _ _ s => s
  | .memoryFault _ _ _ s => s
  | .contractViolation _ s => s
  | .hostFailure _ s => s

/-- What a host does that wants to retry an instruction (R309): set eip back to its start, and undo the esp a faulting
push decremented, both of which it knew before the step. -/
def Fault.retry (f : Fault) (before : State) : State :=
  (f.left.setReg .esp (before.reg .esp)).setEip before.eip

/-- The end of an instruction's rule (R167, R168): Ok, or the raise is taken. -/
def Res.finish (x : Res Unit) : Host.Outcome State Fault Refusal :=
  match x with
  | .done _ s => .next s
  | .raised r s => takeRaise r s

/-- The numeric code of an outcome (R300); Ok is 0. -/
def Raise.code : Raise → Nat
  | .unsupportedInstruction _ _ => 1
  | .memoryFault _ _ _ => 2
  | .contractViolation _ => 3
  | .hostFailure _ => 4

/-- Does the outcome halt the machine (R300)? -/
def Raise.halts : Raise → Bool
  | .unsupportedInstruction _ _ => false
  | .memoryFault _ _ _ => false
  | .contractViolation _ => true
  | .hostFailure _ => true

/-- The outcome that a halted machine returns again (R162). -/
def HaltReason.raise : HaltReason → Raise
  | .contractViolation k => .contractViolation k
  | .hostFailure h => .hostFailure h

/-! ### Memory and stack primitives -/

/-- `MemRead(a, 4)` (R73). -/
def memRead (a : Word) (s : State) : Res Word :=
  if s.mem.inBounds a.toNat 4 then .done (s.mem.read32 a.toNat) s
  else .raised (.memoryFault a .dword .read) s

/-- `MemWrite(a, 4, v)` (R74): the bounds check comes before any byte. -/
def memWrite (a v : Word) (s : State) : Res Unit :=
  if s.mem.inBounds a.toNat 4 then .done () (s.setMem (s.mem.write32 a.toNat v))
  else .raised (.memoryFault a .dword .write) s

/-- `Push(v)` (R190): esp is lowered first, and stays lowered when the write faults. -/
def push (v : Word) (s : State) : Res Unit :=
  memWrite (s.reg .esp - 4#32) v (s.setReg .esp (s.reg .esp - 4#32))

/-- `Pop()` (R191): read, then raise esp. -/
def pop (s : State) : Res Word :=
  (memRead (s.reg .esp) s).andThen fun v s1 => .done v (s1.setReg .esp (s1.reg .esp + 4#32))

end Sys2Proof.Machine
end

