-- ==== Sys2Proof/Machine/Operands.lean ====
section
/-! DEFINITION. The operand forms: the addressing resolver of spec/20_memory.md R84 to R88, the immediates of
spec/30_encoding.md R118, and the near-branch target of R119 and spec/42_control_transfer.md R220. -/

namespace Sys2Proof.Machine

/-- `d.mem` of the decoded record (R134): base, index, scale field and displacement. -/
structure MemParts where
  base  : Option Reg32
  index : Option Reg32
  ss    : BitVec 2
  disp  : Word
deriving DecidableEq, Repr

/-- The record of a memory operand (R114 to R116): disp8 is sign-extended, and without a SIB byte ss is 00. -/
def memParts : MemOperand → MemParts
  | .base b => ⟨some b, none, 0#2, 0#32⟩
  | .disp32 d => ⟨none, none, 0#2, d⟩
  | .baseDisp8 b d => ⟨some b, none, 0#2, sext8 d⟩
  | .baseDisp32 b d => ⟨some b, none, 0#2, d⟩
  | .sib x => ⟨some x.base, x.index, x.ss, 0#32⟩
  | .sibNoBase ss i d => ⟨none, i, ss, d⟩
  | .sibDisp8 x d => ⟨some x.base, x.index, x.ss, sext8 d⟩
  | .sibDisp32 x d => ⟨some x.base, x.index, x.ss, d⟩

/-- The record of a moffs32 field (R86, R134): no base, no index, ss 00. -/
def moffsParts (moffs : Word) : MemParts := ⟨none, none, 0#2, moffs⟩

/-- `EA(d)` (R84, R85) under the machine's `EA_BASE_POLICY`. It reads registers only (R87). -/
def effectiveAddress (p : MemParts) (s : State) : Except ViolationKind Word :=
  if p.ss ≠ 0#2 then .error .scaleNotOne
  else
    match s.policies.eaBase with
    | .add => .ok (s.regOrNone p.base + s.regOrNone p.index + p.disp)
    | .ignore => .ok (s.regOrNone p.index + p.disp)
    | .violation => if p.base.isSome then .error .baseRegister else .ok (s.regOrNone p.index + p.disp)

/-- `EA(d)` as a statement of a rule: its violation is raised (R14). -/
def resolve (p : MemParts) (s : State) : Res Word :=
  match effectiveAddress p s with
  | .ok a => .done a s
  | .error k => .raised (.contractViolation k) s

/-- An imm8 under an extension parameter (R118). -/
def extend8 (e : ImmExt) (b : Byte) : Word :=
  match e with
  | .sign => sext8 b
  | .zero => zext8 b

/-- `d.target = d.next_ip + d.rel` (R119, R220). -/
def nearTarget (nextIp rel : Word) : Word := nextIp + rel

end Sys2Proof.Machine
end

