-- ==== Sys2Proof/Machine/Alu.lean ====
section
/-! DEFINITION. The two ALU instructions (spec/44_alu.md R281, R282). There are no flags (spec/10_state.md R42), so neither
writes any. -/

namespace Sys2Proof.Machine

/-- `and r32, imm8` (R281). -/
def execAndR32Imm8 (r : Reg32) (imm : Byte) (s : State) : Host.Outcome State Fault Refusal :=
  Res.finish (.done () (s.setReg r (s.reg r &&& extend8 s.policies.andImm8Ext imm)))

/-- `sub r32, imm32` (R282), modulo 2^32. -/
def execSubR32Imm32 (r : Reg32) (imm : Word) (s : State) : Host.Outcome State Fault Refusal :=
  Res.finish (.done () (s.setReg r (s.reg r - imm)))

end Sys2Proof.Machine
end

