-- ==== Sys2Proof/Machine/Handler.lean ====
section
/-! DEFINITION. Import interception (spec/42_control_transfer.md R223 to R227): the lookup and the host handler. -/

namespace Sys2Proof

namespace Machine

/-- `Lookup`'s three answers (R223). -/
inductive ImportEntry where
  | absent
  | handler (h : HandlerId)
  | unhandled
deriving DecidableEq, Repr

/-- The entry a binding stands for. -/
def bindingEntry : ImportBinding → ImportEntry
  | .handler h => .handler h
  | .unhandled => .unhandled

/-- `Lookup(target)` (R223): keyed by the value a slot holds. It reads no memory and writes nothing. -/
def importLookup (t : ImportTable) (target : Word) : ImportEntry :=
  match t with
  | [] => .absent
  | e :: rest => if e.1 = target then bindingEntry e.2 else importLookup rest target

/-- What a handler leaves of the Machine (R226): every register, the segment registers, `MEM_SIZE` and every byte of
memory, load_base, and the events it appended to diag (log entry 8). It cannot change `IMPORTS` (R226), the policies, or
`status`, which is the core's. `memSize` is at most 2^32 (R8); the listed bytes are put into canonical form. -/
structure HandlerLeft where
  gpr      : GprFile
  eip      : Word
  seg      : SegFile
  memSize  : Fin (Config.maxMemSize + 1)
  cells    : List Host.Cell
  loadBase : Word
  events   : List DiagEvent
deriving DecidableEq, Repr, Inhabited

/-- A handler's answer (R226): a new Machine, or a failure with whatever it left (R170, 93 U12). -/
inductive HandlerAnswer where
  | returned (m : HandlerLeft)
  | failed (m : HandlerLeft)
deriving DecidableEq, Repr, Inhabited

/-- `HANDLER_SEM` (R8, R226). A relation from the Machine to an answer is read as a function of the handler, the Machine
at the invocation, and a draw that differs from one invocation to the next (log entry 7). -/
abbrev HandlerSem := HandlerId → Nat → State → HandlerAnswer

end Machine

/-- The host's `HANDLER_SEM`: a FREE VALUE, with no body. Nothing can be proved of what a handler does (R226). -/
opaque Config.handlerSem : Machine.HandlerSem

namespace Machine

/-- The Machine after a handler that left `l` (R225): the core writes nothing itself. The model's draw moves on. -/
def State.afterHandler (s : State) (l : HandlerLeft) : State :=
  { s with
    gpr := l.gpr
    eip := l.eip
    seg := l.seg
    mem := Memory.ofCells l.memSize.val l.cells
    loadBase := l.loadBase
    diag := s.diag ++ l.events
    handlerDraw := s.handlerDraw + 1 }

/-- `invoke h` (R225, R226): once, synchronously, with the whole Machine. -/
def invoke (sem : HandlerSem) (h : HandlerId) (s : State) : Res Unit :=
  match sem h s.handlerDraw s with
  | .returned l => .done () (s.afterHandler l)
  | .failed l => .raised (.hostFailure h) (s.afterHandler l)

end Machine

end Sys2Proof
end

