-- ==== Sys2Proof/Machine/Control.lean ====
section
/-! DEFINITION. Control transfer (spec/42_control_transfer.md R220 to R229). eip holds the next instruction's address when a
rule starts (R166). -/

namespace Sys2Proof.Machine

/-- `Push(eip); eip <- target`: the call of R221 and of R224. A push that faults leaves eip alone. -/
def callTo (target : Word) (s : State) : Res Unit :=
  (push s.eip s).andThen fun _ s1 => .done () (s1.setEip target)

/-- The import multiplexer (R222 to R227) on a slot's address and contents. -/
def callThrough (sem : HandlerSem) (slot target : Word) (s : State) : Res Unit :=
  match importLookup s.imports target with
  | .absent => callTo target s
  | .handler h => invoke sem h s
  | .unhandled => .done () (s.emit (.unimplementedImport slot target))

/-- `call rel32` (R221). -/
def execCallRel32 (rel : Word) (s : State) : Host.Outcome State Fault Refusal :=
  (callTo (nearTarget s.eip rel) s).finish

/-- `call dword ptr [mem]` (R222) for a given `HANDLER_SEM`. -/
def callM32With (sem : HandlerSem) (m : MemOperand) (s : State) : Host.Outcome State Fault Refusal :=
  ((resolve (memParts m) s).andThen fun slot s1 =>
    (memRead slot s1).andThen fun target s2 => callThrough sem slot target s2).finish

/-- `call dword ptr [mem]` (R222), with the host's own `HANDLER_SEM`. -/
def execCallM32 (m : MemOperand) (s : State) : Host.Outcome State Fault Refusal :=
  callM32With Config.handlerSem m s

/-- `ret` (R228). -/
def execRet (s : State) : Host.Outcome State Fault Refusal :=
  ((pop s).andThen fun v s1 => .done () (s1.setEip v)).finish

/-- `jmp rel32` (R229). -/
def execJmpRel32 (rel : Word) (s : State) : Host.Outcome State Fault Refusal :=
  Res.finish (.done () (s.setEip (nearTarget s.eip rel)))

end Sys2Proof.Machine
end

