-- ==== Sys2Proof/Machine/DataMove.lean ====
section
/-! DEFINITION. Data movement (spec/43_data_movement.md R250 to R255). -/

namespace Sys2Proof.Machine

/-- `mov dword ptr [mem], imm32` (R250). -/
def execMovM32Imm32 (m : MemOperand) (imm : Word) (s : State) : Host.Outcome State Fault Refusal :=
  ((resolve (memParts m) s).andThen fun a s1 => memWrite a imm s1).finish

/-- `mov [moffs32], eax` (R251). -/
def execMovMoffs32Eax (moffs : Word) (s : State) : Host.Outcome State Fault Refusal :=
  ((resolve (moffsParts moffs) s).andThen fun a s1 => memWrite a (s1.reg .eax) s1).finish

/-- `mov eax, [moffs32]` (R252). -/
def execMovEaxMoffs32 (moffs : Word) (s : State) : Host.Outcome State Fault Refusal :=
  ((resolve (moffsParts moffs) s).andThen fun a s1 =>
    (memRead a s1).andThen fun v s2 => .done () (s2.setReg .eax v)).finish

/-- `mov r32(rm), r32(reg)` (R253). -/
def execMovRm32R32 (dst src : Reg32) (s : State) : Host.Outcome State Fault Refusal :=
  Res.finish (.done () (s.setReg dst (s.reg src)))

/-- `mov r32(reg), r32(rm)` (R254). -/
def execMovR32Rm32 (dst src : Reg32) (s : State) : Host.Outcome State Fault Refusal :=
  Res.finish (.done () (s.setReg dst (s.reg src)))

/-- `lea r32, [mem]` (R255): the address, never dereferenced. -/
def execLeaR32M (dst : Reg32) (m : MemOperand) (s : State) : Host.Outcome State Fault Refusal :=
  ((resolve (memParts m) s).andThen fun a s1 => .done () (s1.setReg dst a)).finish

end Sys2Proof.Machine
end

