-- ==== Sys2Proof/Machine/Stack.lean ====
section
/-! DEFINITION. The stack instructions (spec/41_stack.md R193 to R198). Each runs after the pipeline has set eip to the
next instruction (R166), in the order of its pseudocode (R16). -/

namespace Sys2Proof.Machine

/-- `enter imm16, imm8` (R193). The level is not read: under `ENTER_LEVEL_POLICY = unsupported` the decoder has already
refused a level that is not 0 (R128). -/
def execEnter (frame : Half) (_level : Byte) (s : State) : Host.Outcome State Fault Refusal :=
  ((push (s.reg .ebp) s).andThen fun _ s1 =>
    let s2 := s1.setReg .ebp (s1.reg .esp)
    .done () (s2.setReg .esp (s2.reg .esp - zext16 frame))).finish

/-- `push imm8` (R194). -/
def execPushImm8 (imm : Byte) (s : State) : Host.Outcome State Fault Refusal :=
  (push (extend8 s.policies.pushImm8Ext imm) s).finish

/-- `push imm32` (R195). -/
def execPushImm32 (imm : Word) (s : State) : Host.Outcome State Fault Refusal :=
  (push imm s).finish

/-- `push r32` (R196): the register is read before esp moves. -/
def execPushR32 (r : Reg32) (s : State) : Host.Outcome State Fault Refusal :=
  (push (s.reg r) s).finish

/-- `push dword ptr [mem]` (R197): address, read, push. -/
def execPushM32 (m : MemOperand) (s : State) : Host.Outcome State Fault Refusal :=
  ((resolve (memParts m) s).andThen fun a s1 => (memRead a s1).andThen fun v s2 => push v s2).finish

/-- `pop r32` (R198): the register is written after esp has moved. -/
def execPopR32 (r : Reg32) (s : State) : Host.Outcome State Fault Refusal :=
  ((pop s).andThen fun v s1 => .done () (s1.setReg r v)).finish

end Sys2Proof.Machine
end

