-- ==== Sys2Proof/Machine/Dispatch.lean ====
section
/-! DEFINITION. Stage 3 of the step (spec/40_step_pipeline.md R167): one arm for each of the eighteen forms. -/

namespace Sys2Proof.Machine

def exec (i : Instr) (s : State) : Host.Outcome State Fault Refusal :=
  match i with
  | .enter frame level => Sys2Proof.Machine.execEnter frame level s
  | .callRel32 rel => Sys2Proof.Machine.execCallRel32 rel s
  | .callM32 m => Sys2Proof.Machine.execCallM32 m s
  | .ret => Sys2Proof.Machine.execRet s
  | .jmpRel32 rel => Sys2Proof.Machine.execJmpRel32 rel s
  | .pushImm8 imm => Sys2Proof.Machine.execPushImm8 imm s
  | .pushImm32 imm => Sys2Proof.Machine.execPushImm32 imm s
  | .pushR32 r => Sys2Proof.Machine.execPushR32 r s
  | .pushM32 m => Sys2Proof.Machine.execPushM32 m s
  | .popR32 r => Sys2Proof.Machine.execPopR32 r s
  | .movM32Imm32 m imm => Sys2Proof.Machine.execMovM32Imm32 m imm s
  | .movMoffs32Eax moffs => Sys2Proof.Machine.execMovMoffs32Eax moffs s
  | .movEaxMoffs32 moffs => Sys2Proof.Machine.execMovEaxMoffs32 moffs s
  | .movRm32R32 dst src => Sys2Proof.Machine.execMovRm32R32 dst src s
  | .movR32Rm32 dst src => Sys2Proof.Machine.execMovR32Rm32 dst src s
  | .andR32Imm8 r imm => Sys2Proof.Machine.execAndR32Imm8 r imm s
  | .subR32Imm32 r imm => Sys2Proof.Machine.execSubR32Imm32 r imm s
  | .leaR32M dst m => Sys2Proof.Machine.execLeaR32M dst m s

end Sys2Proof.Machine
end

