-- ==== Sys2Proof/Decode.lean ====
section
/-! DEFINITION. The decoder of spec/30_encoding.md R124, total on any list of bytes, and after it the encoder, written from
the same tables (R112 to R123). PRESUMED by the spec itself: the encodings are IA-32 general knowledge (93 G1, log
entry 12). -/

namespace Sys2Proof

/-! ### Register and byte fields (R112, R113, R115) -/

/-- The register of a 3-bit field (R112). -/
def Reg32.ofBits (n : BitVec 3) : Reg32 :=
  if n = 0#3 then .eax else if n = 1#3 then .ecx else if n = 2#3 then .edx else if n = 3#3 then .ebx
  else if n = 4#3 then .esp else if n = 5#3 then .ebp else if n = 6#3 then .esi else .edi

/-- The number of a register (R112). -/
def Reg32.toBits : Reg32 → BitVec 3
  | .eax => 0#3
  | .ecx => 1#3
  | .edx => 2#3
  | .ebx => 3#3
  | .esp => 4#3
  | .ebp => 5#3
  | .esi => 6#3
  | .edi => 7#3

/-- `ModRM[7:6]`, and `SIB[7:6]` (R113, R115). -/
def modField (b : Byte) : BitVec 2 := b.extractLsb' 6 2

/-- `ModRM[5:3]`, and `SIB[5:3]` (R113, R115). -/
def regField (b : Byte) : BitVec 3 := b.extractLsb' 3 3

/-- `ModRM[2:0]`, `SIB[2:0]`, and the register of `OP+rd` (R113, R115, R121). -/
def rmField (b : Byte) : BitVec 3 := b.extractLsb' 0 3

/-- The index a SIB byte names: 100 is NONE (R115). -/
def indexOfBits (n : BitVec 3) : Option Reg32 := if n = 4#3 then none else some (Reg32.ofBits n)

/-- The fields of a SIB byte, base 101 read as ebp (R115). -/
def sibOf (b : Byte) : Sib where
  ss := modField b
  index := indexOfBits (regField b)
  base := Reg32.ofBits (rmField b)

/-! ### The first byte (R123, R125) -/

/-- The eleven legacy prefix bytes (R125). -/
def legacyPrefixes : List Byte :=
  [0xF0#8, 0xF2#8, 0xF3#8, 0x2E#8, 0x36#8, 0x3E#8, 0x26#8, 0x64#8, 0x65#8, 0x66#8, 0x67#8]

/-- The seven opcode bytes whose form the ModRM byte selects (the `M` bytes of R124). -/
inductive Group where
  | g81
  | g83
  | g89
  | g8B
  | g8D
  | gC7
  | gFF
deriving DecidableEq, Repr

/-- What the first byte settles (the first-byte map of R124). -/
inductive FirstByte where
  | legacyPrefix
  | pushReg (r : Reg32)
  | popReg (r : Reg32)
  | ret
  | pushImm8
  | pushImm32
  | callRel32
  | jmpRel32
  | movEaxMoffs
  | movMoffsEax
  | enter
  | group (g : Group)
  | other
deriving DecidableEq, Repr

/-- The opcode bytes of R123 that stand for themselves (all but 50+rd and 58+rd). -/
def opcodeRows : List (Byte × FirstByte) :=
  [(0xC8#8, .enter), (0xE8#8, .callRel32), (0xC3#8, .ret), (0xE9#8, .jmpRel32), (0x6A#8, .pushImm8),
   (0x68#8, .pushImm32), (0xA3#8, .movMoffsEax), (0xA1#8, .movEaxMoffs),
   (0x81#8, .group .g81), (0x83#8, .group .g83), (0x89#8, .group .g89), (0x8B#8, .group .g8B),
   (0x8D#8, .group .g8D), (0xC7#8, .group .gC7), (0xFF#8, .group .gFF)]

/-- The row of the first byte: a prefix (R125), 50+rd, 58+rd, an opcode byte of R123, or any other byte (R126). -/
def firstByte (b : Byte) : FirstByte :=
  if b ∈ legacyPrefixes then .legacyPrefix
  else if b.extractLsb' 3 5 = 0b01010#5 then .pushReg (Reg32.ofBits (rmField b))
  else if b.extractLsb' 3 5 = 0b01011#5 then .popReg (Reg32.ofBits (rmField b))
  else (opcodeRows.lookup b).getD .other

/-! ### The ModRM byte (R123, R127) -/

/-- The eight forms a ModRM byte selects. -/
inductive ModRMForm where
  | callM32
  | pushM32
  | movM32Imm32
  | movRm32R32
  | movR32Rm32
  | andR32Imm8
  | subR32Imm32
  | leaR32M
deriving DecidableEq, Repr

/-- `Select(b0, mod, reg)` of R124: the table of R123 with its conditions on mod (R127). -/
def select (g : Group) (md : BitVec 2) (reg : BitVec 3) : Option ModRMForm :=
  match g with
  | .g81 => if md = 3#2 ∧ reg = 5#3 then some .subR32Imm32 else none
  | .g83 => if md = 3#2 ∧ reg = 4#3 then some .andR32Imm8 else none
  | .g89 => if md = 3#2 then some .movRm32R32 else none
  | .g8B => if md = 3#2 then some .movR32Rm32 else none
  | .g8D => if md = 3#2 then none else some .leaR32M
  | .gC7 => if md ≠ 3#2 ∧ reg = 0#3 then some .movM32Imm32 else none
  | .gFF => if md = 3#2 then none else if reg = 2#3 then some .callM32 else if reg = 6#3 then some .pushM32 else none

/-- One byte of a list and the rest; `none` when the list has run out. -/
def take8 : List Byte → Option (Byte × List Byte)
  | b :: r => some (b, r)
  | _ => none

/-- `Le32` (R124): four bytes, little-endian, and the rest; `none` when the list runs out. -/
def take32 : List Byte → Option (Word × List Byte)
  | b0 :: b1 :: b2 :: b3 :: r => some (leWord b0 b1 b2 b3, r)
  | _ => none

/-- The SIB byte and displacement of a memory operand, mod not 11 (R114 to R116); `none` when the bytes run out. -/
def decodeMem (md : BitVec 2) (rm : BitVec 3) (bs : List Byte) : Option (MemOperand × List Byte) :=
  if rm = 4#3 then
    match bs with
    | [] => none
    | sb :: r =>
      if md = 0#2 then
        if rmField sb = 5#3 then
          (take32 r).map fun x => (.sibNoBase (sibOf sb).ss (sibOf sb).index x.1, x.2)
        else some (.sib (sibOf sb), r)
      else if md = 1#2 then (take8 r).map fun x => (.sibDisp8 (sibOf sb) x.1, x.2)
      else (take32 r).map fun x => (.sibDisp32 (sibOf sb) x.1, x.2)
  else if md = 0#2 then
    if rm = 5#3 then (take32 bs).map fun x => (.disp32 x.1, x.2)
    else some (.base (Reg32.ofBits rm), bs)
  else if md = 1#2 then (take8 bs).map fun x => (.baseDisp8 (Reg32.ofBits rm) x.1, x.2)
  else (take32 bs).map fun x => (.baseDisp32 (Reg32.ofBits rm) x.1, x.2)

/-! ### The decoder (R124) -/

/-- The decoder's three verdicts (R124). -/
inductive DecodeResult where
  /-- A supported form and the bytes after it. -/
  | decoded (i : Instr) (rest : List Byte)
  /-- Unsupported, with the bytes read. -/
  | unsupported (bytes : List Byte)
  /-- The verdict needs a byte after the last one given: a fetch fault there (R164). -/
  | short
deriving DecidableEq, Repr

/-- The bytes of `bs` read when `rest` is left. -/
def bytesRead (bs rest : List Byte) : List Byte := bs.take (bs.length - rest.length)

/-- The verdict on a selected form: its memory operand, then its immediate, then the index check of a call (R124,
R129). `bs` is the whole instruction, `r` the bytes after its ModRM byte `m`. -/
def decodeForm (f : ModRMForm) (m : Byte) (bs r : List Byte) : DecodeResult :=
  match f with
  | .movRm32R32 => .decoded (.movRm32R32 (Reg32.ofBits (rmField m)) (Reg32.ofBits (regField m))) r
  | .movR32Rm32 => .decoded (.movR32Rm32 (Reg32.ofBits (regField m)) (Reg32.ofBits (rmField m))) r
  | .andR32Imm8 =>
    match take8 r with
    | some (v, r2) => .decoded (.andR32Imm8 (Reg32.ofBits (rmField m)) v) r2
    | none => .short
  | .subR32Imm32 =>
    match take32 r with
    | some (v, r2) => .decoded (.subR32Imm32 (Reg32.ofBits (rmField m)) v) r2
    | none => .short
  | .leaR32M =>
    match decodeMem (modField m) (rmField m) r with
    | some (o, r2) => .decoded (.leaR32M (Reg32.ofBits (regField m)) o) r2
    | none => .short
  | .pushM32 =>
    match decodeMem (modField m) (rmField m) r with
    | some (o, r2) => .decoded (.pushM32 o) r2
    | none => .short
  | .movM32Imm32 =>
    match decodeMem (modField m) (rmField m) r with
    | some (o, r2) =>
      match take32 r2 with
      | some (v, r3) => .decoded (.movM32Imm32 o v) r3
      | none => .short
    | none => .short
  | .callM32 =>
    match decodeMem (modField m) (rmField m) r with
    | some (o, r2) => if o.index = none then .decoded (.callM32 o) r2 else .unsupported (bytesRead bs r2)
    | none => .short

/-- A form with one 32-bit field after its opcode byte (R124). -/
def decodeImm32 (form : Word → Instr) (r : List Byte) : DecodeResult :=
  match take32 r with
  | some (v, r2) => .decoded (form v) r2
  | none => .short

/-- `Decode` (R124) on the bytes from `start` upward. Total: every list has a verdict. -/
def decode (pol : EnterLevelPolicy) (bs : List Byte) : DecodeResult :=
  match bs with
  | [] => .short
  | b0 :: r =>
    match firstByte b0 with
    | .legacyPrefix => .unsupported [b0]
    | .pushReg n => .decoded (.pushR32 n) r
    | .popReg n => .decoded (.popR32 n) r
    | .ret => .decoded .ret r
    | .pushImm8 =>
      match take8 r with
      | some (v, r2) => .decoded (.pushImm8 v) r2
      | none => .short
    | .pushImm32 => decodeImm32 .pushImm32 r
    | .callRel32 => decodeImm32 .callRel32 r
    | .jmpRel32 => decodeImm32 .jmpRel32 r
    | .movEaxMoffs => decodeImm32 .movEaxMoffs32 r
    | .movMoffsEax => decodeImm32 .movMoffs32Eax r
    | .enter =>
      match r with
      | b1 :: b2 :: b3 :: r2 =>
        if pol = .unsupported ∧ b3 ≠ 0#8 then .unsupported [b0, b1, b2, b3]
        else .decoded (.enter (leHalf b1 b2) b3) r2
      | _ => .short
    | .group g =>
      match r with
      | [] => .short
      | m :: r2 =>
        match select g (modField m) (regField m) with
        | none => .unsupported [b0, m]
        | some f => decodeForm f m bs r2
    | .other => .unsupported [b0]

/-! ### Lengths (R122) -/

/-- `L(m)` of R122: the SIB and displacement bytes after the ModRM byte. -/
def MemOperand.tail : MemOperand → Nat
  | .base _ => 0
  | .disp32 _ => 4
  | .baseDisp8 _ _ => 1
  | .baseDisp32 _ _ => 4
  | .sib _ => 1
  | .sibNoBase _ _ _ => 5
  | .sibDisp8 _ _ => 2
  | .sibDisp32 _ _ => 5

/-- The length of an instruction in bytes (the table of R122). -/
def Instr.length : Instr → Nat
  | .pushR32 _ => 1
  | .popR32 _ => 1
  | .ret => 1
  | .pushImm8 _ => 2
  | .movRm32R32 _ _ => 2
  | .movR32Rm32 _ _ => 2
  | .andR32Imm8 _ _ => 3
  | .enter _ _ => 4
  | .pushImm32 _ => 5
  | .callRel32 _ => 5
  | .jmpRel32 _ => 5
  | .movEaxMoffs32 _ => 5
  | .movMoffs32Eax _ => 5
  | .subR32Imm32 _ _ => 6
  | .callM32 m => 2 + m.tail
  | .pushM32 m => 2 + m.tail
  | .leaR32M _ m => 2 + m.tail
  | .movM32Imm32 m _ => 6 + m.tail

/-- The longest supported form (R9, R122). -/
def maxLength : Nat := 11

/-! ### The encoder (R113 to R116, R121, R123) -/

/-- A byte from its `[7:6]`, `[5:3]` and `[2:0]` fields (R113, R115). -/
def fieldsByte (hi : BitVec 2) (mid lo : BitVec 3) : Byte := hi ++ mid ++ lo

/-- The index field of a SIB byte (R115). -/
def indexBits : Option Reg32 → BitVec 3
  | none => 4#3
  | some r => r.toBits

/-- A SIB byte (R115). -/
def sibByte (x : Sib) : Byte := fieldsByte x.ss (indexBits x.index) x.base.toBits

/-- ModRM, SIB and displacement of a memory operand with reg field `reg` (R114 to R116). -/
def encodeMem (reg : BitVec 3) : MemOperand → List Byte
  | .base b => [fieldsByte 0#2 reg b.toBits]
  | .disp32 d => fieldsByte 0#2 reg 5#3 :: leBytes d
  | .baseDisp8 b d => [fieldsByte 1#2 reg b.toBits, d]
  | .baseDisp32 b d => fieldsByte 2#2 reg b.toBits :: leBytes d
  | .sib x => [fieldsByte 0#2 reg 4#3, sibByte x]
  | .sibNoBase ss i d => fieldsByte 0#2 reg 4#3 :: fieldsByte ss (indexBits i) 5#3 :: leBytes d
  | .sibDisp8 x d => [fieldsByte 1#2 reg 4#3, sibByte x, d]
  | .sibDisp32 x d => fieldsByte 2#2 reg 4#3 :: sibByte x :: leBytes d

/-- The bytes of an instruction (R123). -/
def encode : Instr → List Byte
  | .enter w l => [0xC8#8, halfByte w 0, halfByte w 1, l]
  | .callRel32 v => 0xE8#8 :: leBytes v
  | .callM32 m => 0xFF#8 :: encodeMem 2#3 m
  | .ret => [0xC3#8]
  | .jmpRel32 v => 0xE9#8 :: leBytes v
  | .pushImm8 v => [0x6A#8, v]
  | .pushImm32 v => 0x68#8 :: leBytes v
  | .pushR32 r => [0b01010#5 ++ r.toBits]
  | .pushM32 m => 0xFF#8 :: encodeMem 6#3 m
  | .popR32 r => [0b01011#5 ++ r.toBits]
  | .movM32Imm32 m v => 0xC7#8 :: (encodeMem 0#3 m ++ leBytes v)
  | .movMoffs32Eax a => 0xA3#8 :: leBytes a
  | .movEaxMoffs32 a => 0xA1#8 :: leBytes a
  | .movRm32R32 dst src => [0x89#8, fieldsByte 3#2 src.toBits dst.toBits]
  | .movR32Rm32 dst src => [0x8B#8, fieldsByte 3#2 dst.toBits src.toBits]
  | .andR32Imm8 r v => [0x83#8, fieldsByte 3#2 4#3 r.toBits, v]
  | .subR32Imm32 r v => 0x81#8 :: fieldsByte 3#2 5#3 r.toBits :: leBytes v
  | .leaR32M dst m => 0x8D#8 :: encodeMem dst.toBits m

/-! ### The opcode table's words -/

/-- The `n` bytes of `w` from its least significant byte upward. -/
def wordBytes : Nat → Nat → List Byte
  | 0, _ => []
  | n + 1, w => BitVec.ofNat 8 w :: wordBytes n (w / 256)

/-- The eleven bytes of a table word: bits at and above `nbits` are 0. -/
def tableBytes (nbits w : Nat) : List Byte := wordBytes maxLength (w % 2 ^ nbits)

/-- What the decoder reads from an instruction whose bits are `w`, byte 0 its least significant byte, under the
policy value R8 gives. -/
def decodeTableWord (nbits w : Nat) : Option Instr :=
  match decode Policies.spec.enterLevel (tableBytes nbits w) with
  | .decoded i _ => some i
  | _ => none

end Sys2Proof
end

