-- ==== Sys2Proof/Machine/Fetch.lean ====
section
/-! DEFINITION. Stage 1 of the step (spec/40_step_pipeline.md R163 to R165): fetch and decode at eip. -/

namespace Sys2Proof.Machine

/-- Up to `n` bytes from `a` upward (R111), stopping before the first one that is out of bounds (R75). The address wraps
from 0xFFFFFFFF to 0 (R41). -/
def fetchFrom (m : Memory) (a : Word) : Nat → List Byte
  | 0 => []
  | n + 1 =>
    match m.fetchByte a with
    | some b => b :: fetchFrom m (a + 1#32) n
    | none => []

/-- The bytes the decoder may read: the eleven from eip on, as far as they are in bounds (R9, R122). -/
def fetchWindow (s : State) : List Byte := fetchFrom s.mem s.eip maxLength

/-- The decoded record (R134): the form with its operands, its start, length and next_ip, and the bytes read. -/
structure Decoded where
  instr  : Instr
  start  : Word
  len    : Nat
  nextIp : Word
  bytes  : List Byte
deriving DecidableEq, Repr

/-- Stage 1's verdicts. -/
inductive FetchResult where
  | decoded (d : Decoded)
  | raised (r : Raise)
deriving DecidableEq, Repr

/-- The record of an instruction decoded at `start` from `window` (R122, R134). -/
def decodedAt (start : Word) (window : List Byte) (i : Instr) : Decoded where
  instr := i
  start := start
  len := i.length
  nextIp := start + BitVec.ofNat 32 i.length
  bytes := window.take i.length

/-- `Decode(start)` on guest memory (R124, R163). When the verdict needs a byte past the window, that byte's address is
the first out-of-bounds one (R164). -/
def fetchDecode (s : State) : FetchResult :=
  match decode s.policies.enterLevel (fetchWindow s) with
  | .decoded i _ => .decoded (decodedAt s.eip (fetchWindow s) i)
  | .unsupported bytes => .raised (.unsupportedInstruction s.eip bytes)
  | .short => .raised (.memoryFault (s.eip + BitVec.ofNat 32 (fetchWindow s).length) .byte .fetch)

/-- Store bytes at `a`, `a + 1`, ... as a loader does; addresses wrap as a fetch's do. -/
def storeBytes (m : Memory) (a : Word) : List Byte → Memory
  | [] => m
  | b :: bs => storeBytes (m.setByte a.toNat b) (a + 1#32) bs

/-- Memory that is large enough for the eleven bytes from `a` on: grown to hold them when it is not. -/
def growFor (m : Memory) (a : Word) : Memory :=
  { m with size := max m.size (min (a.toNat + maxLength) Config.maxMemSize) }

end Sys2Proof.Machine
end

