-- ==== Sys2Proof/Machine/Step.lean ====
section
/-! DEFINITION. One step (spec/40_step_pipeline.md R162 to R171). -/

namespace Sys2Proof.Machine

/-- `step()` (R171): a halted machine returns its outcome again (R162); else fetch and decode at eip (R163 to R165),
set eip to next_ip (R166), and execute (R167). -/
def step (s : State) : Host.Outcome State Fault Refusal :=
  match s.status with
  | .halted r => takeRaise r.raise s
  | .running =>
    match fetchDecode s with
    | .raised r => takeRaise r s
    | .decoded d => exec d.instr (s.setEip d.nextIp)

/-- `s` as a loader leaves it that has placed one instruction at eip (R342): running, memory large enough to hold the
instruction's eleven bytes, and those bytes stored there. -/
def State.withFetchWord (s : State) (nbits w : Nat) : State :=
  (s.setStatus .running).setMem (storeBytes (growFor s.mem s.eip) s.eip (tableBytes nbits w))

end Sys2Proof.Machine
end

