-- ==== Sys2Proof/Machine/HostPort.lean ====
section
/-! DEFINITION. The block's interfaces to the host (spec/40_step_pipeline.md R160, R161, R173, R174): what a step reports,
generic and direct register access (spec/10_state.md R35 to R38, R43, R46), memory access, import registration, and
construction (R51, R340, R342). -/

namespace Sys2Proof.Machine

/-! ### What a step reports -/

/-- The one Outcome a step returns (R161). -/
inductive StepOutcome where
  | ok
  | raised (r : Raise)
deriving DecidableEq, Repr

/-- The numeric code of an outcome (R300). -/
def StepOutcome.code : StepOutcome → Nat
  | .ok => 0
  | .raised r => r.code

/-- The response of the step interface: the Outcome and the Machine left (R160, R161). `none` would be an instruction
with no meaning. -/
def stepReport (s : State) : Option (StepOutcome × State) :=
  match step s with
  | .next t => some (.ok, t)
  | .fault f => some (.raised f.raise, f.left)
  | .refused _ => none

/-- A host access returns a value, or the typed failure, with the Machine left (R160). -/
inductive HostReply (α : Type) where
  | answer (v : α) (s : State)
  | failed (r : Raise) (s : State)
deriving Repr

/-- The reply of a primitive used by the host: its raise does to `status` what the same raise of a step does (R173,
R174: a memory fault does not change it, an unsupported identifier halts). -/
def Res.reply {α : Type} (x : Res α) : HostReply α :=
  match x with
  | .done v s => .answer v s
  | .raised r s => .failed r (raiseLeft r s)

/-! ### Registers -/

/-- The names of the segment registers (R43). -/
inductive SegReg where
  | cs
  | ds
  | es
  | fs
  | gs
  | ss
deriving DecidableEq, Repr

/-- A register identifier (R35). -/
inductive RegId where
  | gpr (r : Reg32)
  | eip
  | none
  | seg (r : SegReg)
  | other (n : Nat)
deriving DecidableEq, Repr

/-- `get(id)` before its failure is taken (R36 to R38). -/
def getId (id : RegId) (s : State) : Res Word :=
  match id with
  | .gpr r => .done (s.reg r) s
  | .eip => .done s.eip s
  | .none => .done 0#32 s
  | .seg _ => .raised (.contractViolation .unsupportedRegister) s
  | .other _ => .raised (.contractViolation .unsupportedRegister) s

/-- `set(id, v)` before its failure is taken (R36 to R38). -/
def setId (id : RegId) (v : Word) (s : State) : Res Unit :=
  match id with
  | .gpr r => .done () (s.setReg r v)
  | .eip => .done () (s.setEip v)
  | .none => .done () s
  | .seg _ => .raised (.contractViolation .unsupportedRegister) s
  | .other _ => .raised (.contractViolation .unsupportedRegister) s

/-- The host's generic `get(id)` (R160). -/
def hostGet (id : RegId) (s : State) : HostReply Word := (getId id s).reply

/-- The host's generic `set(id, v)` (R160). -/
def hostSet (id : RegId) (v : Word) (s : State) : HostReply Unit := (setId id v s).reply

/-- A segment register read as a field (R43, R173). -/
def SegFile.get (g : SegFile) : SegReg → Half
  | .cs => g.cs
  | .ds => g.ds
  | .es => g.es
  | .fs => g.fs
  | .gs => g.gs
  | .ss => g.ss

/-- A segment register written as a field (R43, R173). -/
def SegFile.set (g : SegFile) (r : SegReg) (v : Half) : SegFile :=
  match r with
  | .cs => { g with cs := v }
  | .ds => { g with ds := v }
  | .es => { g with es := v }
  | .fs => { g with fs := v }
  | .gs => { g with gs := v }
  | .ss => { g with ss := v }

/-- The host's direct read of a segment register (R173). -/
def hostGetSeg (r : SegReg) (s : State) : Half := s.seg.get r

/-- The host's direct write of a segment register (R173). The general registers, eip and load_base are written directly
by `State.setReg`, `State.setEip` and `State.setLoadBase`. -/
def hostSetSeg (r : SegReg) (v : Half) (s : State) : State := s.setSeg (s.seg.set r v)

/-! ### Memory -/

/-- The host's `read32(a)` (R174). -/
def hostRead32 (a : Word) (s : State) : HostReply Word := (memRead a s).reply

/-- The host's `write32(a, v)` (R174). -/
def hostWrite32 (a v : Word) (s : State) : HostReply Unit := (memWrite a v s).reply

/-- The host's `push(v)` (R174). -/
def hostPush (v : Word) (s : State) : HostReply Unit := (push v s).reply

/-- The host's `pop()` (R174). -/
def hostPop (s : State) : HostReply Word := (pop s).reply

/-- The host's read of any byte of memory (R160, R173); out of bounds is a memory fault as every such access is (log
entry 14). -/
def hostReadByte (a : Word) (s : State) : HostReply Byte :=
  if s.mem.inBounds a.toNat 1 then .answer (s.mem.byte a.toNat) s else .failed (.memoryFault a .byte .read) s

/-- The host's write of any byte of memory (R160, R173). -/
def hostWriteByte (a : Word) (v : Byte) (s : State) : HostReply Unit :=
  if s.mem.inBounds a.toNat 1 then .answer () (s.setMem (s.mem.setByte a.toNat v))
  else .failed (.memoryFault a .byte .write) s

/-- Memory of another size: bytes below both sizes stay, bytes that appear hold what `grown` lists (log entry 13). -/
def Memory.resize (m : Memory) (size : Nat) (grown : List Host.Cell) : Memory :=
  Memory.ofCells size ((grown.filter fun c => m.size ≤ c.1) ++ m.cells.filter fun c => c.1 < m.size)

/-- The host resizes memory, to at most 2^32 bytes, between steps (R77, R173). -/
def hostResize (size : Fin (Config.maxMemSize + 1)) (grown : List Host.Cell) (s : State) : State :=
  s.setMem (s.mem.resize size.val grown)

/-! ### Construction and loading -/

/-- Register an import before the first step (R160, R342): the entry of that key, in place of an earlier one. -/
def hostRegisterImport (target : Word) (b : ImportBinding) (s : State) : State :=
  { s with imports := (target, b) :: s.imports.filter fun e => e.1 != target }

/-- The loader's parameters (R8). -/
structure LoadParams where
  memSize  : Fin (Config.maxMemSize + 1)
  memInit  : List Host.Cell
  loadBase : Word
  imports  : ImportTable
  policies : Policies
deriving DecidableEq, Repr

/-- Construction of the Machine, the one reset (R51, R340), for every value of the loader's parameters. -/
def construct (p : LoadParams) : State :=
  { State.reset with
    mem := Memory.ofCells p.memSize.val p.memInit
    loadBase := p.loadBase
    imports := p.imports
    policies := p.policies }

/-- The parameters State.reset takes (log entries 2 to 5). -/
def resetParams : LoadParams where
  memSize := Fin.last Config.maxMemSize
  memInit := []
  loadBase := 0#32
  imports := []
  policies := Policies.spec

end Sys2Proof.Machine
end

