-- ==== Sys2Proof/Safety.lean ====
section
/-! DEFINITION. What a run is and what counts as its successful end (spec/40_step_pipeline.md R177), and the terms in which
statements about instructions are made: what a store does, and what an instruction leaves alone. -/

namespace Sys2Proof.Safety

open Sys2Proof.Machine

/-! ### Runs -/

/-- How a run of at most `n` steps ends. -/
inductive RunEnd where
  /-- `STOP` held: the one successful end (R177). DESIGN CHOICE (unsafe, log entry 22): also on a machine that was halted
  when the run began. -/
  | stopped (s : State)
  /-- A step returned an outcome other than Ok, which is no successful end (R177). -/
  | failed (f : Fault)
  /-- An instruction with no meaning; `step` never answers so. -/
  | refused (r : Refusal)
  /-- The steps given were used up. DESIGN CHOICE (unsafe, log entry 22): with no step given, also on a halted machine. -/
  | unfinished (s : State)
deriving DecidableEq, Repr

/-- Run from `s` until the host's predicate `STOP` (R8), checked between steps, holds or a step does not return Ok. A
machine that halts in the run ends it by the step that halts it; one already halted, by its first step (R162).
DESIGN CHOICE (unsafe, log entry 22): `STOP` is tested before the first step too, and status is never tested, so that on
a machine already halted `STOP` decides first. R8 and R177 name both ends and do not say which counts. -/
def runUntil (stop : State → Bool) : Nat → State → RunEnd
  | 0, s => if stop s then .stopped s else .unfinished s
  | n + 1, s =>
    if stop s then .stopped s
    else
      match step s with
      | .next t => runUntil stop n t
      | .fault f => .failed f
      | .refused r => .refused r

/-! ### Memory -/

/-- `m'` is `m` with the four bytes of `v` stored at `a`, least significant first, and every other byte as before. -/
def StoredAt (m m' : Memory) (a v : Word) : Prop :=
  m'.size = m.size ∧ (∀ k, k < 4 → m'.byte (a.toNat + k) = byteOf v k) ∧
    ∀ x, x < a.toNat ∨ a.toNat + 4 ≤ x → m'.byte x = m.byte x

/-- The four bytes at `a` are those of `v`, least significant first. -/
def ReadsAs (m : Memory) (a v : Word) : Prop := ∀ k, k < 4 → m.byte (a.toNat + k) = byteOf v k

/-- The number of bytes of an access. -/
def accessBytes : AccessWidth → Nat
  | .byte => 1
  | .dword => 4

/-! ### Frames -/

/-- Every general register outside `rs` is unchanged. -/
def SameRegsBut (s t : State) (rs : List Reg32) : Prop := ∀ r, r ∉ rs → t.reg r = s.reg r

/-- Everything but the general registers, eip and memory is unchanged. -/
def SameRest (s t : State) : Prop :=
  t.seg = s.seg ∧ t.loadBase = s.loadBase ∧ t.imports = s.imports ∧ t.policies = s.policies ∧ t.status = s.status ∧
    t.diag = s.diag ∧ t.handlerDraw = s.handlerDraw

/-- `t` is `s` with `v` in register `r`, and nothing else changed. -/
def OnlyReg (s t : State) (r : Reg32) (v : Word) : Prop :=
  t.reg r = v ∧ SameRegsBut s t [r] ∧ t.eip = s.eip ∧ t.mem = s.mem ∧ SameRest s t

/-- The four bytes below esp are in bounds. -/
def CanPush (s : State) : Prop := s.mem.inBounds (s.reg .esp - 4#32).toNat 4

/-- `t` is `s` after `v` was pushed: esp is 4 lower, `v` is stored there, and nothing else changed. -/
def Pushed (s t : State) (v : Word) : Prop :=
  t.reg .esp = s.reg .esp - 4#32 ∧ SameRegsBut s t [.esp] ∧ t.eip = s.eip ∧
    StoredAt s.mem t.mem (s.reg .esp - 4#32) v ∧ SameRest s t

/-- A push's write fault: the failing access is the word below esp, and the machine left has esp lowered and nothing
else changed. -/
def PushFaults (s : State) (o : Host.Outcome State Fault Refusal) : Prop :=
  ∃ t, o = .fault (.memoryFault (s.reg .esp - 4#32) .dword .write t) ∧ OnlyReg s t .esp (s.reg .esp - 4#32)

/-- `t` is `s` after a call of `target`: eip is pushed and then replaced. -/
def Called (s t : State) (target : Word) : Prop :=
  t.reg .esp = s.reg .esp - 4#32 ∧ SameRegsBut s t [.esp] ∧ t.eip = target ∧
    StoredAt s.mem t.mem (s.reg .esp - 4#32) s.eip ∧ SameRest s t

/-- A contract violation that leaves nothing changed but the halted status. -/
def ViolationHalts (s : State) (k : ViolationKind) (o : Host.Outcome State Fault Refusal) : Prop :=
  o = .fault (.contractViolation k (s.setStatus (.halted (.contractViolation k))))

/-- No import has a host handler. -/
def NoHandlers (s : State) : Prop := ∀ target h, importLookup s.imports target ≠ .handler h

/-- The general registers an instruction writes, but for what a host handler writes (the table of R32). -/
def writtenRegs : Instr → List Reg32
  | .enter _ _ => [.esp, .ebp]
  | .callRel32 _ => [.esp]
  | .callM32 _ => [.esp]
  | .ret => [.esp]
  | .jmpRel32 _ => []
  | .pushImm8 _ => [.esp]
  | .pushImm32 _ => [.esp]
  | .pushR32 _ => [.esp]
  | .pushM32 _ => [.esp]
  | .popR32 r => [.esp, r]
  | .movM32Imm32 _ _ => []
  | .movMoffs32Eax _ => []
  | .movEaxMoffs32 _ => [.eax]
  | .movRm32R32 dst _ => [dst]
  | .movR32Rm32 dst _ => [dst]
  | .andR32Imm8 r _ => [r]
  | .subR32Imm32 r _ => [r]
  | .leaR32M dst _ => [dst]

/-- The address of the four bytes an instruction stores to, if it stores (the table of R81), but for what a host
handler stores. -/
def storeAddress (i : Instr) (s : State) : Option Word :=
  match i with
  | .enter _ _ => some (s.reg .esp - 4#32)
  | .callRel32 _ => some (s.reg .esp - 4#32)
  | .callM32 m =>
    match effectiveAddress (memParts m) s with
    | .ok a =>
      if importLookup s.imports (s.mem.read32 a.toNat) = .absent then some (s.reg .esp - 4#32) else none
    | .error _ => none
  | .ret => none
  | .jmpRel32 _ => none
  | .pushImm8 _ => some (s.reg .esp - 4#32)
  | .pushImm32 _ => some (s.reg .esp - 4#32)
  | .pushR32 _ => some (s.reg .esp - 4#32)
  | .pushM32 _ => some (s.reg .esp - 4#32)
  | .popR32 _ => none
  | .movM32Imm32 m _ =>
    match effectiveAddress (memParts m) s with
    | .ok a => some a
    | .error _ => none
  | .movMoffs32Eax moffs => some moffs
  | .movEaxMoffs32 _ => none
  | .movRm32R32 _ _ => none
  | .movR32Rm32 _ _ => none
  | .andR32Imm8 _ _ => none
  | .subR32Imm32 _ _ => none
  | .leaR32M _ _ => none

end Sys2Proof.Safety
end

