-- ==== Sys2Proof/WellFormed.lean ====
section
/-! DEFINITION. Which terms of Instr an encoding exists for: the restrictions of spec/30_encoding.md R114, R115, R128 and
R129. -/

namespace Sys2Proof

/-- esp cannot be an index: the field 100 means NONE (R115). -/
def indexOk : Option Reg32 → Bool
  | none => true
  | some r => r != .esp

/-- A memory operand that R114 and R115 can encode: without a SIB byte rm = 100 (esp) is no base, with mod = 00 the
field 101 (ebp) is no base, and esp is no index. -/
def MemOperand.wellFormed : MemOperand → Bool
  | .base b => b != .esp && b != .ebp
  | .disp32 _ => true
  | .baseDisp8 b _ => b != .esp
  | .baseDisp32 b _ => b != .esp
  | .sib x => indexOk x.index && x.base != .ebp
  | .sibNoBase _ i _ => indexOk i
  | .sibDisp8 x _ => indexOk x.index
  | .sibDisp32 x _ => indexOk x.index

/-- An instruction the decoder can answer under an `ENTER_LEVEL_POLICY`: its memory operand is encodable, a call has no
index register (R129), and under `unsupported` the nesting level is 0 (R128). -/
def Instr.wellFormed (pol : EnterLevelPolicy) : Instr → Bool
  | .enter _ level => pol == .ignore || level == 0#8
  | .callRel32 _ => true
  | .callM32 m => m.wellFormed && m.index.isNone
  | .ret => true
  | .jmpRel32 _ => true
  | .pushImm8 _ => true
  | .pushImm32 _ => true
  | .pushR32 _ => true
  | .pushM32 m => m.wellFormed
  | .popR32 _ => true
  | .movM32Imm32 m _ => m.wellFormed
  | .movMoffs32Eax _ => true
  | .movEaxMoffs32 _ => true
  | .movRm32R32 _ _ => true
  | .movR32Rm32 _ _ => true
  | .andR32Imm8 _ _ => true
  | .subR32Imm32 _ _ => true
  | .leaR32M _ m => m.wellFormed

end Sys2Proof
end

