-- ==== Sys2Proof/Certificates/Slice0/Obligations.lean ====
section
/-! DEFINITION. The statements for the provers, each from a numbered rule of spec/. In a statement about `exec`, the
state is the one the rule's pseudocode starts from: eip already holds the next instruction's address (R16, R166). -/

open Sys2Proof Sys2Proof.Machine Sys2Proof.Safety

/-! ### Encoding -/

/-- Decoding the encoding of a well-formed instruction gives it back, with whatever bytes follow (R123, R124). -/
def Obligations.DecodeOfEncode : Prop :=
  ∀ (pol : EnterLevelPolicy) (i : Instr) (rest : List Byte), i.wellFormed pol = true →
    decode pol (encode i ++ rest) = .decoded i rest

/-- What the decoder accepts is well formed and is exactly its encoding, of the length of R122 (R122, R124). -/
def Obligations.EncodeOfDecode : Prop :=
  ∀ (pol : EnterLevelPolicy) (bs : List Byte) (i : Instr) (rest : List Byte), decode pol bs = .decoded i rest →
    i.wellFormed pol = true ∧ bs = encode i ++ rest ∧ bs.length = i.length + rest.length

/-- Eleven bytes settle every verdict (R9, R122). -/
def Obligations.ElevenBytesSettleEveryVerdict : Prop :=
  ∀ (pol : EnterLevelPolicy) (bs : List Byte), 11 ≤ bs.length → decode pol bs ≠ .short

/-- Words written out from the encodings of R123 decode to the instructions they stand for. -/
def Obligations.SpecWordsDecode : Prop :=
  decodeTableWord 8 0xC3 = some .ret ∧
  decodeTableWord 16 0x2A6A = some (.pushImm8 0x2A#8) ∧
  decodeTableWord 40 0x00000FF9E8 = some (.callRel32 0x00000FF9#32) ∧
  decodeTableWord 16 0xE589 = some (.movRm32R32 .ebp .esp) ∧
  decodeTableWord 24 0xFC458D = some (.leaR32M .eax (.baseDisp8 .ebp 0xFC#8)) ∧
  decodeTableWord 24 0xF0E483 = some (.andR32Imm8 .esp 0xF0#8)

/-- R125: a legacy prefix byte at eip ends the step at once, and only that byte is read. -/
def Obligations.LegacyPrefixRefused : Prop :=
  ∀ (s : State) (b : Byte), s.status = .running → s.mem.inBounds s.eip.toNat 1 → s.mem.byte s.eip.toNat = b →
    b ∈ [0xF0#8, 0xF2#8, 0xF3#8, 0x2E#8, 0x36#8, 0x3E#8, 0x26#8, 0x64#8, 0x65#8, 0x66#8, 0x67#8] →
    step s = .fault (.unsupportedInstruction s.eip [b] s)

/-- R124, R126: a first byte that no row of R123 has is Unsupported, and no further byte is read. -/
def Obligations.UnlistedFirstByteRefused : Prop :=
  ∀ (pol : EnterLevelPolicy) (b : Byte) (rest : List Byte), ¬ (0x50 ≤ b.toNat ∧ b.toNat ≤ 0x5F) →
    b ∉ [0xC8#8, 0xE8#8, 0xC3#8, 0xE9#8, 0x6A#8, 0x68#8, 0xA3#8, 0xA1#8, 0x81#8, 0x83#8, 0x89#8, 0x8B#8, 0x8D#8,
      0xC7#8, 0xFF#8] →
    decode pol (b :: rest) = .unsupported [b]

/-- R124, R127: for an opcode whose form the ModRM byte selects, the ModRM byte is refused exactly when it is outside
the list of R124. -/
def Obligations.ModRMRefusedExactly : Prop :=
  ∀ (pol : EnterLevelPolicy) (b m : Byte) (rest : List Byte),
    b ∈ [0x81#8, 0x83#8, 0x89#8, 0x8B#8, 0x8D#8, 0xC7#8, 0xFF#8] →
    (decode pol (b :: m :: rest) = .unsupported [b, m] ↔
      ¬ ((b = 0x81#8 ∧ m.toNat / 8 % 8 = 5 ∧ m.toNat / 64 = 3) ∨
        (b = 0x83#8 ∧ m.toNat / 8 % 8 = 4 ∧ m.toNat / 64 = 3) ∨
        (b = 0x89#8 ∧ m.toNat / 64 = 3) ∨ (b = 0x8B#8 ∧ m.toNat / 64 = 3) ∨ (b = 0x8D#8 ∧ m.toNat / 64 ≠ 3) ∨
        (b = 0xC7#8 ∧ m.toNat / 8 % 8 = 0 ∧ m.toNat / 64 ≠ 3) ∨
        (b = 0xFF#8 ∧ (m.toNat / 8 % 8 = 2 ∨ m.toNat / 8 % 8 = 6) ∧ m.toNat / 64 ≠ 3)))

/-- R129: a call through a SIB byte that names an index is Unsupported, with all its bytes read; with index = 100 it is
accepted. `n` is the number of displacement bytes (R114). -/
def Obligations.CallWithIndexRefused : Prop :=
  ∀ (pol : EnterLevelPolicy) (m sib : Byte) (rest : List Byte) (n : Nat),
    modField m ≠ 3#2 → regField m = 2#3 → rmField m = 4#3 →
    n = (if modField m = 1#2 then 1 else if modField m = 2#2 then 4 else if rmField sib = 5#3 then 4 else 0) →
    n ≤ rest.length →
    (regField sib ≠ 4#3 → decode pol (0xFF#8 :: m :: sib :: rest) = .unsupported (0xFF#8 :: m :: sib :: rest.take n)) ∧
    (regField sib = 4#3 →
      ∃ o, o.index = none ∧ decode pol (0xFF#8 :: m :: sib :: rest) = .decoded (.callM32 o) (rest.drop n))

/-- R128: a nesting level that is not 0 is Unsupported under the policy `unsupported`; under `ignore` every level is
accepted and has no effect. -/
def Obligations.EnterLevelPolicies : Prop :=
  (∀ (w0 w1 level : Byte) (rest : List Byte), level ≠ 0#8 →
    decode .unsupported (0xC8#8 :: w0 :: w1 :: level :: rest) = .unsupported [0xC8#8, w0, w1, level]) ∧
  (∀ (w0 w1 level : Byte) (rest : List Byte),
    decode .ignore (0xC8#8 :: w0 :: w1 :: level :: rest) = .decoded (.enter (leHalf w0 w1) level) rest) ∧
  ∀ (w : Half) (level : Byte) (s : State), exec (.enter w level) s = exec (.enter w 0#8) s

/-! ### The step -/

/-- When the bytes at eip decode to an instruction, the step is its meaning on the state with eip at next_ip (R166,
R167, R171). -/
def Obligations.StepRunsTheDecodedInstruction : Prop :=
  ∀ (s : State) (i : Instr) (rest : List Byte), s.status = .running →
    decode s.policies.enterLevel (fetchWindow s) = .decoded i rest →
    step s = exec i (s.setEip (s.eip + BitVec.ofNat 32 i.length))

/-- When memory holds the encoding of a well-formed instruction from eip upward, the step is its meaning on the state
with eip just after it; addresses wrap at 2^32 (R41, R111, R163, R166, R167). -/
def Obligations.StepRunsTheInstructionInMemory : Prop :=
  ∀ (s : State) (i : Instr), s.status = .running → i.wellFormed s.policies.enterLevel = true →
    (∀ (k : Nat) (b : Byte), (encode i)[k]? = some b →
      s.mem.inBounds (s.eip + BitVec.ofNat 32 k).toNat 1 ∧ s.mem.byte (s.eip + BitVec.ofNat 32 k).toNat = b) →
    step s = exec i (s.setEip (s.eip + BitVec.ofNat 32 i.length))

/-- R164: a fetch fault reports one byte, the first out-of-bounds byte of the instruction, and changes no state. -/
def Obligations.FetchFaultIsPrecise : Prop :=
  ∀ (s t : State) (a : Word) (w : AccessWidth), step s = .fault (.memoryFault a w .fetch t) →
    w = .byte ∧ t = s ∧ ¬ s.mem.inBounds a.toNat 1 ∧
      ∃ n, n < 11 ∧ a = s.eip + BitVec.ofNat 32 n ∧
        ∀ k, k < n → s.mem.inBounds (s.eip + BitVec.ofNat 32 k).toNat 1

/-- R164, R230: a step at an eip outside memory ends with a fetch fault there and changes nothing. -/
def Obligations.EipOutsideMemoryFaults : Prop :=
  ∀ s : State, s.status = .running → ¬ s.mem.inBounds s.eip.toNat 1 →
    step s = .fault (.memoryFault s.eip .byte .fetch s)

/-- R165: an Unsupported outcome names the start, carries bytes read from there, and changes no state. -/
def Obligations.UnsupportedIsPrecise : Prop :=
  ∀ (s t : State) (start : Word) (bytes : List Byte), step s = .fault (.unsupportedInstruction start bytes t) →
    start = s.eip ∧ t = s ∧ bytes ≠ [] ∧ bytes <+: fetchWindow s

/-- R162: a step of a halted machine changes nothing and returns the outcome that halted it; so a halting outcome is
returned by every later step. -/
def Obligations.HaltedStepRepeatsItsOutcome : Prop :=
  (∀ (s : State) (k : ViolationKind), s.status = .halted (.contractViolation k) →
    step s = .fault (.contractViolation k s)) ∧
  (∀ (s : State) (h : HandlerId), s.status = .halted (.hostFailure h) → step s = .fault (.hostFailure h s)) ∧
  ∀ (s : State) (f : Fault), step s = .fault f → f.raise.halts = true → step f.left = .fault f

/-- R169 to R171, R300: an outcome leaves the machine Running exactly when it is not one of the two halting kinds. -/
def Obligations.OnlyHaltingOutcomesHalt : Prop :=
  ∀ (s : State) (f : Fault), step s = .fault f → (f.left.status = .running ↔ f.raise.halts = false)

/-- R161, R167: a step returns exactly one of the outcomes, never a refusal. -/
def Obligations.StepReturnsOneOutcome : Prop :=
  ∀ s : State, (∀ r, step s ≠ .refused r) ∧ ∃ o t, stepReport s = some (o, t) ∧ o.code ≤ 4

/-- R302, R309: a memory fault reports an access out of bounds, leaves `status` as it was, and leaves everything but eip
and esp as before the step: setting those two back restores the state. -/
def Obligations.MemoryFaultCanBeRetried : Prop :=
  ∀ (s t : State) (a : Word) (w : AccessWidth) (k : AccessKind), step s = .fault (.memoryFault a w k t) →
    ¬ s.mem.inBounds a.toNat (accessBytes w) ∧ (w = .byte ↔ k = .fetch) ∧ t.status = .running ∧
      (Fault.memoryFault a w k t).retry s = s

/-- R303: a contract violation of a running machine comes from a decoded instruction's address, leaves eip at next_ip,
halts the machine and changes nothing else; a step never raises the host's own kind. -/
def Obligations.ContractViolationChangesOnlyEipAndStatus : Prop :=
  ∀ (s t : State) (k : ViolationKind), s.status = .running → step s = .fault (.contractViolation k t) →
    k ≠ .unsupportedRegister ∧
      ∃ d, fetchDecode s = .decoded d ∧ t = (s.setEip d.nextIp).setStatus (.halted (.contractViolation k))

/-- R47, R226: no step, a handler's call included, changes the import table or the policies, whatever its outcome. That a
handler cannot change the policies is the model's choice (log entry 8), and so is that imports and policies stay after a
HostFailure, where R170 may leave the machine unspecified (log entry 10). -/
def Obligations.ImportsAndPoliciesNeverChange : Prop :=
  ∀ s : State, (∀ t, step s = .next t → t.imports = s.imports ∧ t.policies = s.policies) ∧
    ∀ f, step s = .fault f → f.left.imports = s.imports ∧ f.left.policies = s.policies

/-- R49: diag is append-only, whatever the outcome of a step. That a handler, too, only appends is the model's choice (log
entry 8), and so is that the events stay after a HostFailure (log entry 10). -/
def Obligations.DiagIsAppendOnly : Prop :=
  ∀ s : State, (∀ t, step s = .next t → s.diag <+: t.diag) ∧ ∀ f, step s = .fault f → s.diag <+: f.left.diag

/-- R43, R46, R49: without handlers, the core neither writes nor reads the segment registers and load_base, only appends
to diag (R227) and does not read it. With other values there, a step that completes makes the same change and appends the
same events; a step that ends in a fault writes none of the three, raises the same outcome and leaves the same machine
but for them. -/
def Obligations.SegmentsLoadBaseAndDiagAreInert : Prop :=
  ∀ s : State, NoHandlers s →
    (∀ t, step s = .next t →
      t.seg = s.seg ∧ t.loadBase = s.loadBase ∧ ∃ ev, t.diag = s.diag ++ ev ∧
        ∀ (g : SegFile) (b : Word) (d : List DiagEvent),
          step { s with seg := g, loadBase := b, diag := d } =
            .next { t with seg := g, loadBase := b, diag := d ++ ev }) ∧
    ∀ f, step s = .fault f →
      f.left.seg = s.seg ∧ f.left.loadBase = s.loadBase ∧ f.left.diag = s.diag ∧
        ∀ (g : SegFile) (b : Word) (d : List DiagEvent),
          step { s with seg := g, loadBase := b, diag := d } =
            .fault (f.raise.fault { f.left with seg := g, loadBase := b, diag := d })

/-- The frame of every instruction (R32, R40, R43, R46, R77, R81): when no import has a handler, an instruction that
completes changes no general register but those of R32, no byte of memory but the four it stores, and neither the
memory's size, the segment registers, load_base, the imports, the policies nor the status; only the two calls, ret and
jmp may change eip, which holds next_ip when the rule starts; and only call [mem] may add to diag. -/
def Obligations.EveryInstructionsFrame : Prop :=
  ∀ (i : Instr) (s t : State), NoHandlers s → exec i s = .next t →
    SameRegsBut s t (writtenRegs i) ∧
    (∀ a, storeAddress i s = some a → ∀ x, x < a.toNat ∨ a.toNat + 4 ≤ x → t.mem.byte x = s.mem.byte x) ∧
    (storeAddress i s = none → ∀ x, t.mem.byte x = s.mem.byte x) ∧
    t.mem.size = s.mem.size ∧ t.seg = s.seg ∧ t.loadBase = s.loadBase ∧ t.imports = s.imports ∧
    t.policies = s.policies ∧ t.status = s.status ∧ t.handlerDraw = s.handlerDraw ∧
    ((∀ m, i ≠ .callM32 m) → t.diag = s.diag) ∧
    ((∀ rel, i ≠ .callRel32 rel) → (∀ m, i ≠ .callM32 m) → i ≠ .ret → (∀ rel, i ≠ .jmpRel32 rel) → t.eip = s.eip)

/-! ### Invariant and construction -/

/-- Every step keeps memory in canonical form and at most 2^32 bytes, in the next state and in the machine a fault
leaves (R8, R70, R77). The canonical form is the model's own (log entries 3 and 9). -/
def Obligations.StepKeepsCanonicalMemory : Prop :=
  ∀ s : State, s.mem.wf →
    (∀ t, step s = .next t → t.mem.wf) ∧ ∀ f, step s = .fault f → f.left.mem.wf

/-- The invariant holds of every constructed machine and of the reset state, whose parameters are the model's choice (log
entries 2 and 3). -/
def Obligations.ConstructedMemoryIsCanonical : Prop :=
  (∀ p : LoadParams, (construct p).mem.wf) ∧ State.reset.mem.wf

/-- R51, R340: the state after construction, for every value of the loader's parameters. -/
def Obligations.ConstructionValues : Prop :=
  ∀ p : LoadParams,
    (∀ r, (construct p).reg r = 0#32) ∧ (construct p).eip = 0#32 ∧ (∀ r, hostGetSeg r (construct p) = 0#16) ∧
    (construct p).mem.size = p.memSize.val ∧
    (p.memInit.Pairwise (fun c d => c.1 ≠ d.1) →
      ∀ c ∈ p.memInit, c.1 < p.memSize.val → (construct p).mem.byte c.1 = c.2) ∧
    (construct p).loadBase = p.loadBase ∧ (construct p).imports = p.imports ∧ (construct p).status = .running ∧
    (construct p).diag = []

/-! ### Memory -/

/-- R73: `MemRead`. -/
def Obligations.MemReadIsLittleEndian : Prop :=
  ∀ (a : Word) (s : State),
    (s.mem.inBounds a.toNat 4 → ∃ v, ReadsAs s.mem a v ∧ memRead a s = .done v s) ∧
    (¬ s.mem.inBounds a.toNat 4 → memRead a s = .raised (.memoryFault a .dword .read) s)

/-- R74: `MemWrite`. A faulting write changes no byte. -/
def Obligations.MemWriteStoresOrFaultsWhole : Prop :=
  ∀ (a v : Word) (s : State),
    (s.mem.inBounds a.toNat 4 → ∃ m, StoredAt s.mem m a v ∧ memWrite a v s = .done () (s.setMem m)) ∧
    (¬ s.mem.inBounds a.toNat 4 → memWrite a v s = .raised (.memoryFault a .dword .write) s)

/-- R75, R79, R92: after a 4-byte write, a fetch of each of the four addresses sees the byte written. -/
def Obligations.FetchSeesTheWrittenBytes : Prop :=
  ∀ (a v : Word) (s t : State) (k : Nat), s.mem.size ≤ Config.maxMemSize → memWrite a v s = .done () t → k < 4 →
    t.mem.fetchByte (a + BitVec.ofNat 32 k) = some (byteOf v k)

/-- R84, R86, R88: the effective address under the three policies, with scale field 00; with another scale field it is a
violation under each; and what each addressing mode of R88 comes to under `add`. -/
def Obligations.EffectiveAddressPolicies : Prop :=
  ∀ (p : MemParts) (s : State),
    (p.ss ≠ 0#2 → effectiveAddress p s = .error .scaleNotOne) ∧
    (p.ss = 0#2 →
      (s.policies.eaBase = .add →
        effectiveAddress p s = .ok (s.regOrNone p.base + s.regOrNone p.index + p.disp)) ∧
      (s.policies.eaBase = .ignore → effectiveAddress p s = .ok (s.regOrNone p.index + p.disp)) ∧
      (s.policies.eaBase = .violation → p.base = none →
        effectiveAddress p s = .ok (s.regOrNone p.index + p.disp)) ∧
      (s.policies.eaBase = .violation → p.base ≠ none → effectiveAddress p s = .error .baseRegister)) ∧
    (∀ d : Word, effectiveAddress (moffsParts d) s = .ok d) ∧
    s.regOrNone none = 0#32 ∧ (∀ r, s.regOrNone (some r) = s.reg r) ∧
    (s.policies.eaBase = .add → ∀ (b : Reg32) (i : Option Reg32) (d8 : Byte) (d : Word),
      effectiveAddress (memParts (.disp32 d)) s = .ok d ∧
      effectiveAddress (memParts (.base b)) s = .ok (s.reg b) ∧
      effectiveAddress (memParts (.baseDisp8 b d8)) s = .ok (s.reg b + BitVec.ofInt 32 d8.toInt) ∧
      effectiveAddress (memParts (.baseDisp32 b d)) s = .ok (s.reg b + d) ∧
      effectiveAddress (memParts (.sib ⟨0#2, i, b⟩)) s = .ok (s.reg b + s.regOrNone i) ∧
      effectiveAddress (memParts (.sibDisp8 ⟨0#2, i, b⟩ d8)) s =
        .ok (s.reg b + s.regOrNone i + BitVec.ofInt 32 d8.toInt) ∧
      effectiveAddress (memParts (.sibDisp32 ⟨0#2, i, b⟩ d)) s = .ok (s.reg b + s.regOrNone i + d) ∧
      effectiveAddress (memParts (.sibNoBase 0#2 i d)) s = .ok (s.regOrNone i + d))

/-- R85: a scale field other than 00 halts the machine in each of the four forms with a memory operand, whether or not
an index is present, with nothing else changed; a memory operand without a SIB byte has scale field 00. -/
def Obligations.ScaleNotOneHalts : Prop :=
  (∀ (m : MemOperand) (s : State), (memParts m).ss ≠ 0#2 →
    ViolationHalts s .scaleNotOne (exec (.callM32 m) s) ∧ ViolationHalts s .scaleNotOne (exec (.pushM32 m) s) ∧
    (∀ imm, ViolationHalts s .scaleNotOne (exec (.movM32Imm32 m imm) s)) ∧
    ∀ dst, ViolationHalts s .scaleNotOne (exec (.leaR32M dst m) s)) ∧
  ∀ (b : Reg32) (d8 : Byte) (d : Word), (memParts (.base b)).ss = 0#2 ∧ (memParts (.disp32 d)).ss = 0#2 ∧
    (memParts (.baseDisp8 b d8)).ss = 0#2 ∧ (memParts (.baseDisp32 b d)).ss = 0#2

/-! ### Stack -/

/-- R192: the stack laws. -/
def Obligations.StackLaws : Prop :=
  (∀ (v : Word) (s : State), CanPush s →
    ∃ t, push v s = .done () t ∧ Pushed s t v ∧ memRead (s.reg .esp - 4#32) t = .done v t ∧
      ∃ u, pop t = .done v u ∧ u.reg .esp = s.reg .esp) ∧
  ∀ (v : Word) (s t : State), pop s = .done v t → OnlyReg s t .esp (s.reg .esp + 4#32)

/-- R193: enter. With a nesting level it never reaches its rule under `ENTER_LEVEL_POLICY = unsupported` (R128). -/
def Obligations.EnterResult : Prop :=
  ∀ (frame : Half) (level : Byte) (s : State),
    encode (.enter frame level) = [0xC8#8, halfByte frame 0, halfByte frame 1, level] ∧
    (CanPush s → ∃ t, exec (.enter frame level) s = .next t ∧
      t.reg .ebp = s.reg .esp - 4#32 ∧ t.reg .esp = s.reg .esp - 4#32 - BitVec.ofNat 32 frame.toNat ∧
      SameRegsBut s t [.esp, .ebp] ∧ t.eip = s.eip ∧
      StoredAt s.mem t.mem (s.reg .esp - 4#32) (s.reg .ebp) ∧ SameRest s t) ∧
    (¬ CanPush s → PushFaults s (exec (.enter frame level) s)) ∧
    (level ≠ 0#8 → ∀ rest, decode .unsupported (encode (.enter frame level) ++ rest) =
      .unsupported (encode (.enter frame level)))

/-- R194: push imm8, under both values of `PUSH_IMM8_EXT`. -/
def Obligations.PushImm8Result : Prop :=
  ∀ (imm : Byte) (s : State),
    encode (.pushImm8 imm) = [0x6A#8, imm] ∧
    (CanPush s → ∃ t v, exec (.pushImm8 imm) s = .next t ∧ Pushed s t v ∧
      (s.policies.pushImm8Ext = .sign → v.toInt = imm.toInt) ∧
      (s.policies.pushImm8Ext = .zero → v.toNat = imm.toNat)) ∧
    (¬ CanPush s → PushFaults s (exec (.pushImm8 imm) s))

/-- R195: push imm32. -/
def Obligations.PushImm32Result : Prop :=
  ∀ (imm : Word) (s : State),
    encode (.pushImm32 imm) = [0x68#8, byteOf imm 0, byteOf imm 1, byteOf imm 2, byteOf imm 3] ∧
    (CanPush s → ∃ t, exec (.pushImm32 imm) s = .next t ∧ Pushed s t imm) ∧
    (¬ CanPush s → PushFaults s (exec (.pushImm32 imm) s))

/-- R196: push r32. `push esp` pushes the value before the decrement. -/
def Obligations.PushR32Result : Prop :=
  ∀ (r : Reg32) (s : State),
    encode (.pushR32 r) = [BitVec.ofNat 8 (0x50 + r.toBits.toNat)] ∧
    (CanPush s → ∃ t, exec (.pushR32 r) s = .next t ∧ Pushed s t (s.reg r)) ∧
    (¬ CanPush s → PushFaults s (exec (.pushR32 r) s))

/-- R197: push [mem]: the address, the read, then the push. The register form is Unsupported. -/
def Obligations.PushM32Result : Prop :=
  ∀ (m : MemOperand) (s : State),
    encode (.pushM32 m) = 0xFF#8 :: encodeMem 6#3 m ∧
    (∀ (pol : EnterLevelPolicy) (b : Byte) (rest : List Byte), b.toNat / 8 = 0xF0 / 8 →
      decode pol (0xFF#8 :: b :: rest) = .unsupported [0xFF#8, b]) ∧
    (∀ k, effectiveAddress (memParts m) s = .error k → ViolationHalts s k (exec (.pushM32 m) s)) ∧
    ∀ a, effectiveAddress (memParts m) s = .ok a →
      (¬ s.mem.inBounds a.toNat 4 → exec (.pushM32 m) s = .fault (.memoryFault a .dword .read s)) ∧
      (s.mem.inBounds a.toNat 4 → CanPush s →
        ∃ t v, exec (.pushM32 m) s = .next t ∧ ReadsAs s.mem a v ∧ Pushed s t v) ∧
      (s.mem.inBounds a.toNat 4 → ¬ CanPush s → PushFaults s (exec (.pushM32 m) s))

/-- R198: pop r32. `pop esp` leaves the value read. -/
def Obligations.PopR32Result : Prop :=
  ∀ (r : Reg32) (s : State),
    encode (.popR32 r) = [BitVec.ofNat 8 (0x58 + r.toBits.toNat)] ∧
    (s.mem.inBounds (s.reg .esp).toNat 4 →
      ∃ t v, exec (.popR32 r) s = .next t ∧ ReadsAs s.mem (s.reg .esp) v ∧ t.reg r = v ∧
        (r ≠ .esp → t.reg .esp = s.reg .esp + 4#32) ∧ SameRegsBut s t [.esp, r] ∧ t.eip = s.eip ∧ t.mem = s.mem ∧
        SameRest s t) ∧
    (¬ s.mem.inBounds (s.reg .esp).toNat 4 →
      exec (.popR32 r) s = .fault (.memoryFault (s.reg .esp) .dword .read s))

/-! ### Control transfer -/

/-- R220, R221: call rel32. -/
def Obligations.CallRel32Result : Prop :=
  ∀ (rel : Word) (s : State),
    encode (.callRel32 rel) = [0xE8#8, byteOf rel 0, byteOf rel 1, byteOf rel 2, byteOf rel 3] ∧
    (CanPush s → ∃ t, exec (.callRel32 rel) s = .next t ∧ Called s t (s.eip + rel)) ∧
    (¬ CanPush s → PushFaults s (exec (.callRel32 rel) s))

/-- R222: call [mem] before its three cases: the address and the slot's read. The register form is Unsupported. -/
def Obligations.CallM32SlotFaults : Prop :=
  ∀ (m : MemOperand) (s : State),
    encode (.callM32 m) = 0xFF#8 :: encodeMem 2#3 m ∧
    (∀ (pol : EnterLevelPolicy) (b : Byte) (rest : List Byte), b.toNat / 8 = 0xD0 / 8 →
      decode pol (0xFF#8 :: b :: rest) = .unsupported [0xFF#8, b]) ∧
    (∀ k, effectiveAddress (memParts m) s = .error k → ViolationHalts s k (exec (.callM32 m) s)) ∧
    ∀ slot, effectiveAddress (memParts m) s = .ok slot → ¬ s.mem.inBounds slot.toNat 4 →
      exec (.callM32 m) s = .fault (.memoryFault slot .dword .read s)

/-- R222, R224: call [mem] of a target that is no import is an ordinary call of the slot's value. -/
def Obligations.CallM32AbsentResult : Prop :=
  ∀ (m : MemOperand) (s : State) (slot target : Word), effectiveAddress (memParts m) s = .ok slot →
    s.mem.inBounds slot.toNat 4 → ReadsAs s.mem slot target → importLookup s.imports target = .absent →
    (CanPush s → ∃ t, exec (.callM32 m) s = .next t ∧ Called s t target) ∧
    (¬ CanPush s → PushFaults s (exec (.callM32 m) s))

/-- R224: that call is the same as call rel32 with that target. -/
def Obligations.CallM32AbsentIsCallRel32 : Prop :=
  ∀ (m : MemOperand) (s : State) (slot target rel : Word), effectiveAddress (memParts m) s = .ok slot →
    s.mem.inBounds slot.toNat 4 → ReadsAs s.mem slot target → importLookup s.imports target = .absent →
    s.eip + rel = target → exec (.callM32 m) s = exec (.callRel32 rel) s

/-- R227: call [mem] of an import without a handler adds one event to diag and changes nothing else. -/
def Obligations.CallM32UnhandledResult : Prop :=
  ∀ (m : MemOperand) (s : State) (slot target : Word), effectiveAddress (memParts m) s = .ok slot →
    s.mem.inBounds slot.toNat 4 → ReadsAs s.mem slot target → importLookup s.imports target = .unhandled →
    exec (.callM32 m) s = .next { s with diag := s.diag ++ [.unimplementedImport slot target] }

/-- R225, R226, R170: call [mem] of an import with a handler runs the handler on the machine as it stands and then
writes nothing: the machine is what the handler left, and a failure halts it. The instruction uses the host's own
`HANDLER_SEM`. The model's choices: that `HANDLER_SEM` is a function of the machine and of a draw (log entry 7); that a
handler leaves policies and status alone, may write load_base and only appends to diag (log entry 8); and that a failing
handler's machine is such a value too, with the imports kept (log entry 10). -/
def Obligations.CallM32HandlerResult : Prop :=
  (∀ (m : MemOperand) (s : State), exec (.callM32 m) s = callM32With Config.handlerSem m s) ∧
  ∀ (sem : HandlerSem) (m : MemOperand) (s : State) (slot target : Word) (h : HandlerId) (l : HandlerLeft),
    effectiveAddress (memParts m) s = .ok slot → s.mem.inBounds slot.toNat 4 → ReadsAs s.mem slot target →
    importLookup s.imports target = .handler h →
    (sem h s.handlerDraw s = .returned l →
      ∃ t, callM32With sem m s = .next t ∧ t.gpr = l.gpr ∧ t.eip = l.eip ∧ t.seg = l.seg ∧
        t.mem = Memory.ofCells l.memSize.val l.cells ∧ t.loadBase = l.loadBase ∧ t.diag = s.diag ++ l.events ∧
        t.imports = s.imports ∧ t.policies = s.policies ∧ t.status = s.status) ∧
    (sem h s.handlerDraw s = .failed l →
      ∃ t, callM32With sem m s = .fault (.hostFailure h t) ∧ t.status = .halted (.hostFailure h) ∧ t.gpr = l.gpr ∧
        t.eip = l.eip ∧ t.seg = l.seg ∧ t.mem = Memory.ofCells l.memSize.val l.cells ∧ t.imports = s.imports)

/-- R228: ret. Any value popped is taken. `ret imm16` is Unsupported. -/
def Obligations.RetResult : Prop :=
  ∀ s : State,
    encode .ret = [0xC3#8] ∧
    (∀ (pol : EnterLevelPolicy) (rest : List Byte), decode pol (0xC2#8 :: rest) = .unsupported [0xC2#8]) ∧
    (s.mem.inBounds (s.reg .esp).toNat 4 →
      ∃ t v, exec .ret s = .next t ∧ ReadsAs s.mem (s.reg .esp) v ∧ t.eip = v ∧ t.reg .esp = s.reg .esp + 4#32 ∧
        SameRegsBut s t [.esp] ∧ t.mem = s.mem ∧ SameRest s t) ∧
    (¬ s.mem.inBounds (s.reg .esp).toNat 4 → exec .ret s = .fault (.memoryFault (s.reg .esp) .dword .read s))

/-- R221, R228: a ret from the state after a call, whatever eip then is, restores the return address and esp. -/
def Obligations.RetAfterCallReturns : Prop :=
  ∀ (rel ip : Word) (s t : State), exec (.callRel32 rel) s = .next t →
    ∃ u, exec .ret (t.setEip ip) = .next u ∧ u.eip = s.eip ∧ u.gpr = s.gpr ∧ u.mem = t.mem

/-- R220, R229: jmp rel32. `jmp rel8` is Unsupported. -/
def Obligations.JmpRel32Result : Prop :=
  ∀ (rel : Word) (s : State),
    encode (.jmpRel32 rel) = [0xE9#8, byteOf rel 0, byteOf rel 1, byteOf rel 2, byteOf rel 3] ∧
    (∀ (pol : EnterLevelPolicy) (rest : List Byte), decode pol (0xEB#8 :: rest) = .unsupported [0xEB#8]) ∧
    ∃ t, exec (.jmpRel32 rel) s = .next t ∧ t.eip.toNat = (s.eip.toNat + rel.toNat) % 2 ^ 32 ∧ t.gpr = s.gpr ∧
      t.mem = s.mem ∧ SameRest s t

/-! ### Data movement -/

/-- R250: mov dword ptr [mem], imm32. The register forms C7 C0+r and B8+rd are Unsupported. -/
def Obligations.MovM32Imm32Result : Prop :=
  ∀ (m : MemOperand) (imm : Word) (s : State),
    encode (.movM32Imm32 m imm) =
      0xC7#8 :: (encodeMem 0#3 m ++ [byteOf imm 0, byteOf imm 1, byteOf imm 2, byteOf imm 3]) ∧
    (∀ (pol : EnterLevelPolicy) (b : Byte) (rest : List Byte),
      (b.toNat / 8 = 0xC0 / 8 → decode pol (0xC7#8 :: b :: rest) = .unsupported [0xC7#8, b]) ∧
      (b.toNat / 8 = 0xB8 / 8 → decode pol (b :: rest) = .unsupported [b])) ∧
    (∀ k, effectiveAddress (memParts m) s = .error k → ViolationHalts s k (exec (.movM32Imm32 m imm) s)) ∧
    ∀ a, effectiveAddress (memParts m) s = .ok a →
      (s.mem.inBounds a.toNat 4 →
        ∃ t, exec (.movM32Imm32 m imm) s = .next t ∧ StoredAt s.mem t.mem a imm ∧ t.gpr = s.gpr ∧ t.eip = s.eip ∧
          SameRest s t) ∧
      (¬ s.mem.inBounds a.toNat 4 → exec (.movM32Imm32 m imm) s = .fault (.memoryFault a .dword .write s))

/-- R251: mov [moffs32], eax, under every policy. The 8-bit form is Unsupported. -/
def Obligations.MovMoffs32EaxResult : Prop :=
  ∀ (moffs : Word) (s : State),
    encode (.movMoffs32Eax moffs) = [0xA3#8, byteOf moffs 0, byteOf moffs 1, byteOf moffs 2, byteOf moffs 3] ∧
    (∀ (pol : EnterLevelPolicy) (rest : List Byte), decode pol (0xA2#8 :: rest) = .unsupported [0xA2#8]) ∧
    (s.mem.inBounds moffs.toNat 4 →
      ∃ t, exec (.movMoffs32Eax moffs) s = .next t ∧ StoredAt s.mem t.mem moffs (s.reg .eax) ∧ t.gpr = s.gpr ∧
        t.eip = s.eip ∧ SameRest s t) ∧
    (¬ s.mem.inBounds moffs.toNat 4 → exec (.movMoffs32Eax moffs) s = .fault (.memoryFault moffs .dword .write s))

/-- R252: mov eax, [moffs32], under every policy. The 8-bit form is Unsupported. -/
def Obligations.MovEaxMoffs32Result : Prop :=
  ∀ (moffs : Word) (s : State),
    encode (.movEaxMoffs32 moffs) = [0xA1#8, byteOf moffs 0, byteOf moffs 1, byteOf moffs 2, byteOf moffs 3] ∧
    (∀ (pol : EnterLevelPolicy) (rest : List Byte), decode pol (0xA0#8 :: rest) = .unsupported [0xA0#8]) ∧
    (s.mem.inBounds moffs.toNat 4 →
      ∃ t v, exec (.movEaxMoffs32 moffs) s = .next t ∧ ReadsAs s.mem moffs v ∧ OnlyReg s t .eax v) ∧
    (¬ s.mem.inBounds moffs.toNat 4 → exec (.movEaxMoffs32 moffs) s = .fault (.memoryFault moffs .dword .read s))

/-- R253, R254: the two register moves. A memory operand is Unsupported. -/
def Obligations.RegisterMoveResults : Prop :=
  ∀ (dst src : Reg32) (s : State),
    encode (.movRm32R32 dst src) = [0x89#8, BitVec.ofNat 8 (0xC0 + 8 * src.toBits.toNat + dst.toBits.toNat)] ∧
    encode (.movR32Rm32 dst src) = [0x8B#8, BitVec.ofNat 8 (0xC0 + 8 * dst.toBits.toNat + src.toBits.toNat)] ∧
    (∀ (pol : EnterLevelPolicy) (b : Byte) (rest : List Byte), b.toNat / 64 ≠ 3 →
      decode pol (0x89#8 :: b :: rest) = .unsupported [0x89#8, b] ∧
      decode pol (0x8B#8 :: b :: rest) = .unsupported [0x8B#8, b]) ∧
    (∃ t, exec (.movRm32R32 dst src) s = .next t ∧ OnlyReg s t dst (s.reg src)) ∧
    ∃ t, exec (.movR32Rm32 dst src) s = .next t ∧ OnlyReg s t dst (s.reg src)

/-- R255: lea. It makes no memory access, so memory's size does not matter. A register operand
is Unsupported. -/
def Obligations.LeaResult : Prop :=
  ∀ (dst : Reg32) (m : MemOperand) (s : State),
    encode (.leaR32M dst m) = 0x8D#8 :: encodeMem dst.toBits m ∧
    (∀ (pol : EnterLevelPolicy) (b : Byte) (rest : List Byte), b.toNat / 64 = 3 →
      decode pol (0x8D#8 :: b :: rest) = .unsupported [0x8D#8, b]) ∧
    (∀ k, effectiveAddress (memParts m) s = .error k → ViolationHalts s k (exec (.leaR32M dst m) s)) ∧
    ∀ a, effectiveAddress (memParts m) s = .ok a →
      ∃ t, exec (.leaR32M dst m) s = .next t ∧ OnlyReg s t dst a

/-! ### ALU -/

/-- R281: and r32, imm8, under both values of `AND_IMM8_EXT`. A memory destination is Unsupported. -/
def Obligations.AndResult : Prop :=
  ∀ (r : Reg32) (imm : Byte) (s : State),
    encode (.andR32Imm8 r imm) = [0x83#8, BitVec.ofNat 8 (0xE0 + r.toBits.toNat), imm] ∧
    (∀ (pol : EnterLevelPolicy) (b : Byte) (rest : List Byte), b.toNat / 64 ≠ 3 →
      decode pol (0x83#8 :: b :: rest) = .unsupported [0x83#8, b]) ∧
    ∃ t k, exec (.andR32Imm8 r imm) s = .next t ∧ OnlyReg s t r (s.reg r &&& k) ∧
      (s.policies.andImm8Ext = .zero → k.toNat = imm.toNat) ∧ (s.policies.andImm8Ext = .sign → k.toInt = imm.toInt)

/-- R282: sub r32, imm32, wrapping modulo 2^32. A memory destination and the imm8 form are Unsupported. -/
def Obligations.SubResult : Prop :=
  ∀ (r : Reg32) (imm : Word) (s : State),
    encode (.subR32Imm32 r imm) =
      [0x81#8, BitVec.ofNat 8 (0xE8 + r.toBits.toNat), byteOf imm 0, byteOf imm 1, byteOf imm 2, byteOf imm 3] ∧
    (∀ (pol : EnterLevelPolicy) (b : Byte) (rest : List Byte),
      (b.toNat / 64 ≠ 3 → decode pol (0x81#8 :: b :: rest) = .unsupported [0x81#8, b]) ∧
      (b.toNat / 8 % 8 = 5 → decode pol (0x83#8 :: b :: rest) = .unsupported [0x83#8, b])) ∧
    ∃ t v, exec (.subR32Imm32 r imm) s = .next t ∧ OnlyReg s t r v ∧
      v.toNat = ((s.reg r).toNat + (2 ^ 32 - imm.toNat)) % 2 ^ 32

/-! ### The host's interface -/

/-- R36, R37, R38: generic get and set of a general register, of eip, of NONE, and of any other identifier. -/
def Obligations.HostGetAndSet : Prop :=
  (∀ (r : Reg32) (v : Word) (s : State), hostGet (.gpr r) s = .answer (s.reg r) s ∧
    ∃ t, hostSet (.gpr r) v s = .answer () t ∧ OnlyReg s t r v) ∧
  (∀ (v : Word) (s : State), hostGet .eip s = .answer s.eip s ∧ hostSet .eip v s = .answer () { s with eip := v }) ∧
  (∀ (v : Word) (s : State), hostGet .none s = .answer 0#32 s ∧ hostSet .none v s = .answer () s) ∧
  ∀ (id : RegId) (v : Word) (s : State), (∀ r, id ≠ .gpr r) → id ≠ .eip → id ≠ .none →
    hostGet id s = .failed (.contractViolation .unsupportedRegister)
      (s.setStatus (.halted (.contractViolation .unsupportedRegister))) ∧
    hostSet id v s = .failed (.contractViolation .unsupportedRegister)
      (s.setStatus (.halted (.contractViolation .unsupportedRegister)))

/-- R43, R173: the host's direct access to a segment register writes that one register. -/
def Obligations.HostSegmentAccess : Prop :=
  ∀ (q r : SegReg) (v : Half) (s : State),
    hostGetSeg q (hostSetSeg r v s) = (if q = r then v else hostGetSeg q s) ∧
    (hostSetSeg r v s).gpr = s.gpr ∧ (hostSetSeg r v s).eip = s.eip ∧ (hostSetSeg r v s).mem = s.mem ∧
    (hostSetSeg r v s).status = s.status

/-- R174: the host's own memory and stack accesses fail as the primitives do, with the same partial effect, and a
failure does not change `status`. -/
def Obligations.HostAccessFaults : Prop :=
  ∀ (a v : Word) (s : State),
    (¬ s.mem.inBounds a.toNat 4 → hostRead32 a s = .failed (.memoryFault a .dword .read) s ∧
      hostWrite32 a v s = .failed (.memoryFault a .dword .write) s) ∧
    (¬ CanPush s → ∃ t, hostPush v s = .failed (.memoryFault (s.reg .esp - 4#32) .dword .write) t ∧
      OnlyReg s t .esp (s.reg .esp - 4#32)) ∧
    (¬ s.mem.inBounds (s.reg .esp).toNat 4 → hostPop s = .failed (.memoryFault (s.reg .esp) .dword .read) s)

/-- R77, R89, R173: a resize by the host keeps every byte below both sizes (with no write, a read returns the last value),
gives memory the new size and changes nothing else. That the result is in canonical form is the model's choice (log entry
9); what the bytes that appear hold is left to the host's argument (log entry 13). -/
def Obligations.HostResizeKeepsBytes : Prop :=
  ∀ (size : Fin (Config.maxMemSize + 1)) (grown : List Host.Cell) (s : State), s.mem.wf →
    (hostResize size grown s).mem.size = size.val ∧ (hostResize size grown s).mem.wf ∧
    (∀ x, x < size.val → x < s.mem.size → (hostResize size grown s).mem.byte x = s.mem.byte x) ∧
    (hostResize size grown s).gpr = s.gpr ∧ (hostResize size grown s).eip = s.eip ∧
    SameRest s (hostResize size grown s)

/-- R223: after an import is registered, its key looks up to its binding, and every other key as before. That the new
binding replaces one the key already had is the model's choice (log entry 20). -/
def Obligations.RegisteredImportIsFound : Prop :=
  ∀ (key target : Word) (b : ImportBinding) (s : State),
    importLookup (hostRegisterImport key b s).imports target =
      if target = key then bindingEntry b else importLookup s.imports target

/-- R177: a run that ends with `STOP` took only steps that returned Ok, and `STOP` held of its last state and of none
before. That `STOP` is tested before the first step, and ahead of status, is the model's choice (log entry 22). -/
def Obligations.SuccessfulRunIsAllOk : Prop :=
  ∀ (stop : State → Bool) (n : Nat) (s t : State), runUntil stop n s = .stopped t →
    stop t = true ∧ ∃ k, k ≤ n ∧ core.run k s = .next t ∧
      ∀ j, j < k → ∃ u, core.run j s = .next u ∧ stop u = false
end

