-- ==== Sys2Proof/Laws/Memory.lean ====
section
/-! SUPPORT. The laws of guest memory: a read after a write, what a write leaves alone, and that every memory operation
keeps the canonical form `Memory.wf`. -/

namespace Sys2Proof.Machine

/-! ### Reading after writing -/

theorem cellAt_eraseCell_self (cs : List Host.Cell) (a : Nat) : cellAt (eraseCell a cs) a = Config.unlistedByte := by
  induction cs with
  | nil => rfl
  | cons c cs ih =>
    unfold eraseCell
    split
    · exact ih
    · simp [cellAt, *]

theorem cellAt_eraseCell_of_ne (cs : List Host.Cell) {a b : Nat} (h : b ≠ a) :
    cellAt (eraseCell a cs) b = cellAt cs b := by
  induction cs with
  | nil => rfl
  | cons c cs ih =>
    unfold eraseCell
    split
    · next hc => rw [ih, cellAt, if_neg (by omega)]
    · simp only [cellAt, ih]

theorem cellAt_insertCell_self (cs : List Host.Cell) (a : Nat) (v : Byte) (h : ∀ c ∈ cs, c.1 ≠ a) :
    cellAt (insertCell a v cs) a = v := by
  induction cs with
  | nil => simp [insertCell, cellAt]
  | cons c cs ih =>
    unfold insertCell
    split
    · simp [cellAt]
    · rw [cellAt, if_neg (h c (by simp)), ih fun d hd => h d (by simp [hd])]

theorem cellAt_insertCell_of_ne (cs : List Host.Cell) {a b : Nat} (v : Byte) (h : b ≠ a) :
    cellAt (insertCell a v cs) b = cellAt cs b := by
  induction cs with
  | nil => simp [insertCell, cellAt, h.symm]
  | cons c cs ih =>
    unfold insertCell
    split
    · rw [cellAt, if_neg h.symm]
    · simp only [cellAt, ih]

theorem mem_eraseCell {cs : List Host.Cell} {a : Nat} {c : Host.Cell} :
    c ∈ eraseCell a cs ↔ c ∈ cs ∧ c.1 ≠ a := by
  induction cs with
  | nil => simp [eraseCell]
  | cons d cs ih =>
    unfold eraseCell
    split
    · next hd => simp only [ih, List.mem_cons]; aesop
    · next hd => simp only [ih, List.mem_cons]; aesop

theorem mem_insertCell {cs : List Host.Cell} {a : Nat} {v : Byte} {c : Host.Cell} :
    c ∈ insertCell a v cs ↔ c = (a, v) ∨ c ∈ cs := by
  induction cs with
  | nil => simp [insertCell]
  | cons d cs ih =>
    unfold insertCell
    split
    · simp
    · simp only [List.mem_cons, ih]; tauto

/-- A byte reads back as written. -/
@[simp] theorem Memory.byte_setByte_self (m : Memory) (a : Nat) (v : Byte) : (m.setByte a v).byte a = v := by
  simp only [Memory.byte, Memory.setByte, setCell]
  split
  · next h => rw [cellAt_eraseCell_self, h]
  · exact cellAt_insertCell_self _ _ _ fun c hc => (mem_eraseCell.1 hc).2

/-- A byte write leaves every other byte alone. -/
theorem Memory.byte_setByte_of_ne (m : Memory) {a b : Nat} (v : Byte) (h : b ≠ a) :
    (m.setByte a v).byte b = m.byte b := by
  simp only [Memory.byte, Memory.setByte, setCell]
  split
  · exact cellAt_eraseCell_of_ne _ h
  · rw [cellAt_insertCell_of_ne _ _ h, cellAt_eraseCell_of_ne _ h]

@[simp] theorem Memory.size_setByte (m : Memory) (a : Nat) (v : Byte) : (m.setByte a v).size = m.size := rfl

@[simp] theorem Memory.size_write32 (m : Memory) (a : Nat) (v : Word) : (m.write32 a v).size = m.size := rfl

/-- The bytes a 4-byte write stores (R74). -/
theorem Memory.byte_write32_inside (m : Memory) (a : Nat) (v : Word) {k : Nat} (h : k < 4) :
    (m.write32 a v).byte (a + k) = byteOf v k := by
  unfold Memory.write32
  obtain rfl | rfl | rfl | rfl : k = 0 ∨ k = 1 ∨ k = 2 ∨ k = 3 := by omega
  · rw [byte_setByte_of_ne _ _ (by omega), byte_setByte_of_ne _ _ (by omega), byte_setByte_of_ne _ _ (by omega),
      Nat.add_zero, byte_setByte_self]
  · rw [byte_setByte_of_ne _ _ (by omega), byte_setByte_of_ne _ _ (by omega), byte_setByte_self]
  · rw [byte_setByte_of_ne _ _ (by omega), byte_setByte_self]
  · rw [byte_setByte_self]

/-- A 4-byte write leaves every byte outside its four alone (R74). -/
theorem Memory.byte_write32_outside (m : Memory) {a b : Nat} (v : Word) (h : b < a ∨ a + 4 ≤ b) :
    (m.write32 a v).byte b = m.byte b := by
  unfold Memory.write32
  rw [byte_setByte_of_ne _ _ (by omega), byte_setByte_of_ne _ _ (by omega), byte_setByte_of_ne _ _ (by omega),
    byte_setByte_of_ne _ _ (by omega)]

/-- The four bytes of a word, read little-endian, are the word. -/
theorem leWord_byteOf (v : Word) : leWord (byteOf v 0) (byteOf v 1) (byteOf v 2) (byteOf v 3) = v := by
  simp only [leWord, byteOf]
  ext i hi
  simp only [BitVec.getElem_append, BitVec.getElem_extractLsb']
  split
  · simp [BitVec.getLsbD_eq_getElem, hi]
  · split
    · have : 8 + (i - 8) = i := by omega
      simp [this, BitVec.getLsbD_eq_getElem, hi]
    · split
      · have : 16 + (i - 8 - 8) = i := by omega
        simp [this, BitVec.getLsbD_eq_getElem, hi]
      · have : 24 + (i - 8 - 8 - 8) = i := by omega
        simp [this, BitVec.getLsbD_eq_getElem, hi]

/-! ### The canonical form -/

theorem pairwise_eraseCell {cs : List Host.Cell} (a : Nat) (h : cs.Pairwise fun c d => c.1 < d.1) :
    (eraseCell a cs).Pairwise fun c d => c.1 < d.1 := by
  induction cs with
  | nil => exact h
  | cons c cs ih =>
    rw [List.pairwise_cons] at h
    unfold eraseCell
    split
    · exact ih h.2
    · exact List.pairwise_cons.2 ⟨fun d hd => h.1 d (mem_eraseCell.1 hd).1, ih h.2⟩

theorem pairwise_insertCell {cs : List Host.Cell} (a : Nat) (v : Byte) (h : cs.Pairwise fun c d => c.1 < d.1)
    (hne : ∀ c ∈ cs, c.1 ≠ a) : (insertCell a v cs).Pairwise fun c d => c.1 < d.1 := by
  induction cs with
  | nil => simp [insertCell]
  | cons c cs ih =>
    have h' := List.pairwise_cons.1 h
    have hca := hne c (by simp)
    unfold insertCell
    split
    · next hlt =>
      refine List.pairwise_cons.2 ⟨fun d hd => ?_, h⟩
      rcases List.mem_cons.1 hd with rfl | hd
      · exact hlt
      · exact lt_trans hlt (h'.1 d hd)
    · refine List.pairwise_cons.2 ⟨fun d hd => ?_, ih h'.2 fun d hd => hne d (by simp [hd])⟩
      rcases mem_insertCell.1 hd with rfl | hd
      · change c.1 < a
        omega
      · exact h'.1 d hd

/-- Writing a byte in bounds keeps the canonical form. -/
theorem Memory.wf_setByte {m : Memory} (h : m.wf) {a : Nat} (ha : a < m.size) (v : Byte) : (m.setByte a v).wf := by
  obtain ⟨h1, h2, h3⟩ := h
  refine ⟨h1, ?_, fun c hc => ?_⟩
  · simp only [Memory.setByte, setCell]
    split
    · exact pairwise_eraseCell a h2
    · exact pairwise_insertCell a v (pairwise_eraseCell a h2) fun c hc => (mem_eraseCell.1 hc).2
  · simp only [Memory.setByte, setCell] at hc
    split at hc
    · exact h3 c (mem_eraseCell.1 hc).1
    · next hv =>
      rcases mem_insertCell.1 hc with rfl | hc
      · exact ⟨ha, hv⟩
      · exact h3 c (mem_eraseCell.1 hc).1

/-- A 4-byte write in bounds keeps the canonical form. -/
theorem Memory.wf_write32 {m : Memory} (h : m.wf) {a : Nat} (ha : m.inBounds a 4) (v : Word) : (m.write32 a v).wf := by
  have ha' : a + 4 ≤ m.size := ha
  unfold Memory.write32
  refine wf_setByte (wf_setByte (wf_setByte (wf_setByte h ?_ _) ?_ _) ?_ _) ?_ _ <;>
    (try simp only [size_setByte]) <;> omega

theorem Memory.wf_foldl (cells : List Host.Cell) : ∀ {m : Memory} {size : Nat}, m.size = size → m.wf →
    (cells.foldl (fun m c => if c.1 < size then m.setByte c.1 c.2 else m) m).wf ∧
      (cells.foldl (fun m c => if c.1 < size then m.setByte c.1 c.2 else m) m).size = size := by
  induction cells with
  | nil => exact fun hs h => ⟨h, hs⟩
  | cons c cs ih =>
    intro m size hs h
    simp only [List.foldl_cons]
    split
    · next hc => exact ih hs (wf_setByte h (hs ▸ hc) _)
    · exact ih hs h

/-- Memory built from listed bytes is in canonical form. -/
theorem Memory.wf_ofCells {size : Nat} (h : size ≤ Config.maxMemSize) (cells : List Host.Cell) :
    (Memory.ofCells size cells).wf :=
  (wf_foldl cells (m := ⟨size, []⟩) rfl ⟨h, List.Pairwise.nil, by simp⟩).1

@[simp] theorem Memory.size_ofCells {size : Nat} (h : size ≤ Config.maxMemSize) (cells : List Host.Cell) :
    (Memory.ofCells size cells).size = size :=
  (wf_foldl cells (m := ⟨size, []⟩) rfl ⟨h, List.Pairwise.nil, by simp⟩).2

/-- Resizing gives a memory in canonical form. -/
theorem Memory.wf_resize (m : Memory) {size : Nat} (h : size ≤ Config.maxMemSize) (grown : List Host.Cell) :
    (m.resize size grown).wf := wf_ofCells h _

/-- What a handler leaves is in canonical form. -/
theorem State.afterHandler_mem_wf (s : State) (l : HandlerLeft) : (s.afterHandler l).mem.wf :=
  Memory.wf_ofCells (Nat.lt_succ_iff.1 l.memSize.isLt) _

theorem Memory.wf_growFor {m : Memory} (h : m.wf) (a : Word) : (growFor m a).wf := by
  obtain ⟨h1, h2, h3⟩ := h
  refine ⟨?_, h2, fun c hc => ⟨lt_of_lt_of_le (h3 c hc).1 (Nat.le_max_left _ _), (h3 c hc).2⟩⟩
  simp only [growFor]
  omega

/-- The memory of the reset state is in canonical form. -/
theorem State.reset_mem_wf : State.reset.mem.wf := ⟨Nat.le_refl _, List.Pairwise.nil, by simp [State.reset]⟩

end Sys2Proof.Machine
end

