-- ==== Sys2Proof/Laws/Decode.lean ====
section
/-! SUPPORT. The laws of bytes, bit fields, registers and SIB bytes on which the agreement of decoder and encoder rests. -/

namespace Sys2Proof

/-! ### Bytes of a word -/

/-- Which bit of four bytes a bit of their little-endian word is (R11). -/
theorem getLsbD_leWord (a b c d : Byte) (i : Nat) : (leWord a b c d).getLsbD i =
    if i < 8 then a.getLsbD i else if i < 16 then b.getLsbD (i - 8) else if i < 24 then c.getLsbD (i - 16)
    else d.getLsbD (i - 24) := by
  change BitVec.getLsbD (w := 8 + 8 + 8 + 8) (d ++ c ++ b ++ a) i = _
  rw [BitVec.getLsbD_append, BitVec.getLsbD_append, BitVec.getLsbD_append]
  by_cases h1 : i < 8
  · simp [h1]
  by_cases h2 : i < 16
  · simp [h1, h2, show i - 8 < 8 by omega]
  by_cases h3 : i < 24
  · simp [h1, h2, h3, show ¬ (i - 8 < 8) by omega, show i - 8 - 8 = i - 16 by omega]
    intro; omega
  · simp [h1, h2, h3, show ¬ (i - 8 < 8) by omega, show ¬ (i - 8 - 8 < 8) by omega,
      show i - 8 - 8 - 8 = i - 24 by omega]

/-- The bytes of the word that four bytes make are those four. -/
@[simp] theorem leBytes_leWord (a b c d : Byte) : leBytes (leWord a b c d) = [a, b, c, d] := by
  simp only [leBytes, List.cons.injEq, and_true]
  refine ⟨?_, ?_, ?_, ?_⟩ <;> ext i hi <;> simp only [byteOf, BitVec.getElem_extractLsb', getLsbD_leWord]
  · simp [hi, BitVec.getLsbD_eq_getElem]
  · simp [hi, show ¬ (8 + i < 8) by omega, show 8 + i < 16 by omega, BitVec.getLsbD_eq_getElem]
  · simp [hi, show ¬ (16 + i < 8) by omega, show ¬ 16 + i < 16 by omega, show 16 + i < 24 by omega,
      BitVec.getLsbD_eq_getElem]
  · simp [hi, show ¬ (24 + i < 8) by omega, show ¬ 24 + i < 16 by omega, show ¬ 24 + i < 24 by omega,
      BitVec.getLsbD_eq_getElem]

/-- The half that its two bytes make is the half. -/
@[simp] theorem leHalf_halfByte (w : Half) : leHalf (halfByte w 0) (halfByte w 1) = w := by
  simp only [leHalf, halfByte]
  ext i hi
  simp only [BitVec.getElem_append, BitVec.getElem_extractLsb']
  split
  · simp [BitVec.getLsbD_eq_getElem, hi]
  · have : 8 + (i - 8) = i := by omega
    simp [this, BitVec.getLsbD_eq_getElem, hi]

theorem getLsbD_leHalf (a b : Byte) (i : Nat) :
    (leHalf a b).getLsbD i = if i < 8 then a.getLsbD i else b.getLsbD (i - 8) := by
  change BitVec.getLsbD (w := 8 + 8) (b ++ a) i = _
  rw [BitVec.getLsbD_append]

@[simp] theorem halfByte_zero_leHalf (a b : Byte) : halfByte (leHalf a b) 0 = a := by
  ext i hi
  simp only [halfByte, BitVec.getElem_extractLsb', getLsbD_leHalf]
  simp [hi, BitVec.getLsbD_eq_getElem]

@[simp] theorem halfByte_one_leHalf (a b : Byte) : halfByte (leHalf a b) 1 = b := by
  ext i hi
  simp only [halfByte, BitVec.getElem_extractLsb', getLsbD_leHalf]
  simp [show ¬ (8 + i < 8) by omega, hi, BitVec.getLsbD_eq_getElem]

/-! ### Taking bytes from a list -/

/-- The four bytes of a word are taken back as the word (R111). -/
@[simp] theorem take32_leBytes (v : Word) (rest : List Byte) : take32 (leBytes v ++ rest) = some (v, rest) := by
  simp [leBytes, take32, Machine.leWord_byteOf]

/-- What `take32` takes are the bytes of the word it answers. -/
theorem take32_eq_some {bs : List Byte} {x : Word × List Byte} (h : take32 bs = some x) : bs = leBytes x.1 ++ x.2 := by
  match bs, h with
  | a :: b :: c :: d :: r, h =>
    simp only [take32, Option.some.injEq] at h
    subst h
    simp

/-- What `take8` takes is the byte it answers. -/
theorem take8_eq_some {bs : List Byte} {x : Byte × List Byte} (h : take8 bs = some x) : bs = x.1 :: x.2 := by
  match bs, h with
  | a :: r, h =>
    simp only [take8, Option.some.injEq] at h
    subst h
    rfl

/-! ### Register numbers and fields (R112, R113, R115) -/

@[simp] theorem Reg32.ofBits_toBits (r : Reg32) : Reg32.ofBits r.toBits = r := by cases r <;> decide

@[simp] theorem Reg32.toBits_ofBits (n : BitVec 3) : (Reg32.ofBits n).toBits = n := by revert n; decide

theorem Reg32.toBits_eq_four (r : Reg32) : r.toBits = 4#3 ↔ r = .esp := by cases r <;> decide

theorem Reg32.toBits_eq_five (r : Reg32) : r.toBits = 5#3 ↔ r = .ebp := by cases r <;> decide

@[simp] theorem modField_fieldsByte (a : BitVec 2) (b c : BitVec 3) : modField (fieldsByte a b c) = a := by
  revert a b c; decide

@[simp] theorem regField_fieldsByte (a : BitVec 2) (b c : BitVec 3) : regField (fieldsByte a b c) = b := by
  revert a b c; decide

@[simp] theorem rmField_fieldsByte (a : BitVec 2) (b c : BitVec 3) : rmField (fieldsByte a b c) = c := by
  revert a b c; decide

/-- A byte is its three fields. -/
@[simp] theorem fieldsByte_fields (b : Byte) : fieldsByte (modField b) (regField b) (rmField b) = b := by
  revert b; decide

/-! ### SIB bytes (R115) -/

theorem indexOfBits_indexBits {i : Option Reg32} (h : indexOk i = true) : indexOfBits (indexBits i) = i := by
  cases i with
  | none => rfl
  | some r => cases r <;> first | decide | simp [indexOk] at h

@[simp] theorem indexBits_indexOfBits (n : BitVec 3) : indexBits (indexOfBits n) = n := by revert n; decide

@[simp] theorem indexOk_indexOfBits (n : BitVec 3) : indexOk (indexOfBits n) = true := by revert n; decide

/-- A SIB byte of encodable fields reads back as those fields. -/
theorem sibOf_sibByte {x : Sib} (h : indexOk x.index = true) : sibOf (sibByte x) = x := by
  cases x
  simp only [sibOf, sibByte, modField_fieldsByte, regField_fieldsByte, rmField_fieldsByte, Reg32.ofBits_toBits,
    Sib.mk.injEq, true_and, and_true]
  exact indexOfBits_indexBits h

@[simp] theorem sibByte_sibOf (b : Byte) : sibByte (sibOf b) = b := by simp [sibOf, sibByte]

end Sys2Proof
end

