-- ==== Sys2Proof/Laws/State.lean ====
section
/-! SUPPORT. What each update of State does to each field: one lemma per field per update, true by rfl. -/

namespace Sys2Proof.Machine

/-! ### setReg -/

@[simp] theorem State.setReg_gpr (s : State) (r : Reg32) (v : Word) : (s.setReg r v).gpr = s.gpr.set r v := rfl
@[simp] theorem State.setReg_eip (s : State) (r : Reg32) (v : Word) : (s.setReg r v).eip = s.eip := rfl
@[simp] theorem State.setReg_seg (s : State) (r : Reg32) (v : Word) : (s.setReg r v).seg = s.seg := rfl
@[simp] theorem State.setReg_mem (s : State) (r : Reg32) (v : Word) : (s.setReg r v).mem = s.mem := rfl
@[simp] theorem State.setReg_loadBase (s : State) (r : Reg32) (v : Word) : (s.setReg r v).loadBase = s.loadBase := rfl
@[simp] theorem State.setReg_imports (s : State) (r : Reg32) (v : Word) : (s.setReg r v).imports = s.imports := rfl
@[simp] theorem State.setReg_policies (s : State) (r : Reg32) (v : Word) : (s.setReg r v).policies = s.policies := rfl
@[simp] theorem State.setReg_status (s : State) (r : Reg32) (v : Word) : (s.setReg r v).status = s.status := rfl
@[simp] theorem State.setReg_diag (s : State) (r : Reg32) (v : Word) : (s.setReg r v).diag = s.diag := rfl
@[simp] theorem State.setReg_handlerDraw (s : State) (r : Reg32) (v : Word) : (s.setReg r v).handlerDraw = s.handlerDraw := rfl

/-! ### setEip -/

@[simp] theorem State.setEip_gpr (s : State) (v : Word) : (s.setEip v).gpr = s.gpr := rfl
@[simp] theorem State.setEip_eip (s : State) (v : Word) : (s.setEip v).eip = v := rfl
@[simp] theorem State.setEip_seg (s : State) (v : Word) : (s.setEip v).seg = s.seg := rfl
@[simp] theorem State.setEip_mem (s : State) (v : Word) : (s.setEip v).mem = s.mem := rfl
@[simp] theorem State.setEip_loadBase (s : State) (v : Word) : (s.setEip v).loadBase = s.loadBase := rfl
@[simp] theorem State.setEip_imports (s : State) (v : Word) : (s.setEip v).imports = s.imports := rfl
@[simp] theorem State.setEip_policies (s : State) (v : Word) : (s.setEip v).policies = s.policies := rfl
@[simp] theorem State.setEip_status (s : State) (v : Word) : (s.setEip v).status = s.status := rfl
@[simp] theorem State.setEip_diag (s : State) (v : Word) : (s.setEip v).diag = s.diag := rfl
@[simp] theorem State.setEip_handlerDraw (s : State) (v : Word) : (s.setEip v).handlerDraw = s.handlerDraw := rfl

/-! ### setSeg -/

@[simp] theorem State.setSeg_gpr (s : State) (g : SegFile) : (s.setSeg g).gpr = s.gpr := rfl
@[simp] theorem State.setSeg_eip (s : State) (g : SegFile) : (s.setSeg g).eip = s.eip := rfl
@[simp] theorem State.setSeg_seg (s : State) (g : SegFile) : (s.setSeg g).seg = g := rfl
@[simp] theorem State.setSeg_mem (s : State) (g : SegFile) : (s.setSeg g).mem = s.mem := rfl
@[simp] theorem State.setSeg_loadBase (s : State) (g : SegFile) : (s.setSeg g).loadBase = s.loadBase := rfl
@[simp] theorem State.setSeg_imports (s : State) (g : SegFile) : (s.setSeg g).imports = s.imports := rfl
@[simp] theorem State.setSeg_policies (s : State) (g : SegFile) : (s.setSeg g).policies = s.policies := rfl
@[simp] theorem State.setSeg_status (s : State) (g : SegFile) : (s.setSeg g).status = s.status := rfl
@[simp] theorem State.setSeg_diag (s : State) (g : SegFile) : (s.setSeg g).diag = s.diag := rfl
@[simp] theorem State.setSeg_handlerDraw (s : State) (g : SegFile) : (s.setSeg g).handlerDraw = s.handlerDraw := rfl

/-! ### setMem -/

@[simp] theorem State.setMem_gpr (s : State) (m : Memory) : (s.setMem m).gpr = s.gpr := rfl
@[simp] theorem State.setMem_eip (s : State) (m : Memory) : (s.setMem m).eip = s.eip := rfl
@[simp] theorem State.setMem_seg (s : State) (m : Memory) : (s.setMem m).seg = s.seg := rfl
@[simp] theorem State.setMem_mem (s : State) (m : Memory) : (s.setMem m).mem = m := rfl
@[simp] theorem State.setMem_loadBase (s : State) (m : Memory) : (s.setMem m).loadBase = s.loadBase := rfl
@[simp] theorem State.setMem_imports (s : State) (m : Memory) : (s.setMem m).imports = s.imports := rfl
@[simp] theorem State.setMem_policies (s : State) (m : Memory) : (s.setMem m).policies = s.policies := rfl
@[simp] theorem State.setMem_status (s : State) (m : Memory) : (s.setMem m).status = s.status := rfl
@[simp] theorem State.setMem_diag (s : State) (m : Memory) : (s.setMem m).diag = s.diag := rfl
@[simp] theorem State.setMem_handlerDraw (s : State) (m : Memory) : (s.setMem m).handlerDraw = s.handlerDraw := rfl

/-! ### setLoadBase -/

@[simp] theorem State.setLoadBase_gpr (s : State) (v : Word) : (s.setLoadBase v).gpr = s.gpr := rfl
@[simp] theorem State.setLoadBase_eip (s : State) (v : Word) : (s.setLoadBase v).eip = s.eip := rfl
@[simp] theorem State.setLoadBase_seg (s : State) (v : Word) : (s.setLoadBase v).seg = s.seg := rfl
@[simp] theorem State.setLoadBase_mem (s : State) (v : Word) : (s.setLoadBase v).mem = s.mem := rfl
@[simp] theorem State.setLoadBase_loadBase (s : State) (v : Word) : (s.setLoadBase v).loadBase = v := rfl
@[simp] theorem State.setLoadBase_imports (s : State) (v : Word) : (s.setLoadBase v).imports = s.imports := rfl
@[simp] theorem State.setLoadBase_policies (s : State) (v : Word) : (s.setLoadBase v).policies = s.policies := rfl
@[simp] theorem State.setLoadBase_status (s : State) (v : Word) : (s.setLoadBase v).status = s.status := rfl
@[simp] theorem State.setLoadBase_diag (s : State) (v : Word) : (s.setLoadBase v).diag = s.diag := rfl
@[simp] theorem State.setLoadBase_handlerDraw (s : State) (v : Word) : (s.setLoadBase v).handlerDraw = s.handlerDraw := rfl

/-! ### setStatus -/

@[simp] theorem State.setStatus_gpr (s : State) (v : Status) : (s.setStatus v).gpr = s.gpr := rfl
@[simp] theorem State.setStatus_eip (s : State) (v : Status) : (s.setStatus v).eip = s.eip := rfl
@[simp] theorem State.setStatus_seg (s : State) (v : Status) : (s.setStatus v).seg = s.seg := rfl
@[simp] theorem State.setStatus_mem (s : State) (v : Status) : (s.setStatus v).mem = s.mem := rfl
@[simp] theorem State.setStatus_loadBase (s : State) (v : Status) : (s.setStatus v).loadBase = s.loadBase := rfl
@[simp] theorem State.setStatus_imports (s : State) (v : Status) : (s.setStatus v).imports = s.imports := rfl
@[simp] theorem State.setStatus_policies (s : State) (v : Status) : (s.setStatus v).policies = s.policies := rfl
@[simp] theorem State.setStatus_status (s : State) (v : Status) : (s.setStatus v).status = v := rfl
@[simp] theorem State.setStatus_diag (s : State) (v : Status) : (s.setStatus v).diag = s.diag := rfl
@[simp] theorem State.setStatus_handlerDraw (s : State) (v : Status) : (s.setStatus v).handlerDraw = s.handlerDraw := rfl

/-! ### emit -/

@[simp] theorem State.emit_gpr (s : State) (e : DiagEvent) : (s.emit e).gpr = s.gpr := rfl
@[simp] theorem State.emit_eip (s : State) (e : DiagEvent) : (s.emit e).eip = s.eip := rfl
@[simp] theorem State.emit_seg (s : State) (e : DiagEvent) : (s.emit e).seg = s.seg := rfl
@[simp] theorem State.emit_mem (s : State) (e : DiagEvent) : (s.emit e).mem = s.mem := rfl
@[simp] theorem State.emit_loadBase (s : State) (e : DiagEvent) : (s.emit e).loadBase = s.loadBase := rfl
@[simp] theorem State.emit_imports (s : State) (e : DiagEvent) : (s.emit e).imports = s.imports := rfl
@[simp] theorem State.emit_policies (s : State) (e : DiagEvent) : (s.emit e).policies = s.policies := rfl
@[simp] theorem State.emit_status (s : State) (e : DiagEvent) : (s.emit e).status = s.status := rfl
@[simp] theorem State.emit_diag (s : State) (e : DiagEvent) : (s.emit e).diag = s.diag ++ [e] := rfl
@[simp] theorem State.emit_handlerDraw (s : State) (e : DiagEvent) : (s.emit e).handlerDraw = s.handlerDraw := rfl

/-! ### afterHandler -/

@[simp] theorem State.afterHandler_gpr (s : State) (l : HandlerLeft) : (s.afterHandler l).gpr = l.gpr := rfl
@[simp] theorem State.afterHandler_eip (s : State) (l : HandlerLeft) : (s.afterHandler l).eip = l.eip := rfl
@[simp] theorem State.afterHandler_seg (s : State) (l : HandlerLeft) : (s.afterHandler l).seg = l.seg := rfl
@[simp] theorem State.afterHandler_mem (s : State) (l : HandlerLeft) : (s.afterHandler l).mem = Memory.ofCells l.memSize.val l.cells := rfl
@[simp] theorem State.afterHandler_loadBase (s : State) (l : HandlerLeft) : (s.afterHandler l).loadBase = l.loadBase := rfl
@[simp] theorem State.afterHandler_imports (s : State) (l : HandlerLeft) : (s.afterHandler l).imports = s.imports := rfl
@[simp] theorem State.afterHandler_policies (s : State) (l : HandlerLeft) : (s.afterHandler l).policies = s.policies := rfl
@[simp] theorem State.afterHandler_status (s : State) (l : HandlerLeft) : (s.afterHandler l).status = s.status := rfl
@[simp] theorem State.afterHandler_diag (s : State) (l : HandlerLeft) : (s.afterHandler l).diag = s.diag ++ l.events := rfl
@[simp] theorem State.afterHandler_handlerDraw (s : State) (l : HandlerLeft) : (s.afterHandler l).handlerDraw = s.handlerDraw + 1 := rfl

/-! ### General registers -/

@[simp] theorem GprFile.get_set_self (g : GprFile) (r : Reg32) (v : Word) : (g.set r v).get r = v := by
  cases r <;> rfl

theorem GprFile.get_set_of_ne (g : GprFile) {q r : Reg32} (v : Word) (h : q ≠ r) : (g.set r v).get q = g.get q := by
  cases r <;> cases q <;> first | rfl | exact absurd rfl h

theorem GprFile.ext_get {g k : GprFile} (h : ∀ r, g.get r = k.get r) : g = k := by
  cases g
  cases k
  simpa [GprFile.get] using
    And.intro (h .eax) (And.intro (h .ecx) (And.intro (h .edx) (And.intro (h .ebx)
      (And.intro (h .esp) (And.intro (h .ebp) (And.intro (h .esi) (h .edi)))))))

@[simp] theorem State.setReg_reg_self (s : State) (r : Reg32) (v : Word) : (s.setReg r v).reg r = v :=
  GprFile.get_set_self s.gpr r v

theorem State.setReg_reg_of_ne (s : State) {q r : Reg32} (v : Word) (h : q ≠ r) : (s.setReg r v).reg q = s.reg q :=
  GprFile.get_set_of_ne s.gpr v h

@[simp] theorem State.setEip_reg (s : State) (v : Word) (q : Reg32) : (s.setEip v).reg q = s.reg q := rfl
@[simp] theorem State.setSeg_reg (s : State) (g : SegFile) (q : Reg32) : (s.setSeg g).reg q = s.reg q := rfl
@[simp] theorem State.setMem_reg (s : State) (m : Memory) (q : Reg32) : (s.setMem m).reg q = s.reg q := rfl
@[simp] theorem State.setLoadBase_reg (s : State) (v : Word) (q : Reg32) : (s.setLoadBase v).reg q = s.reg q := rfl
@[simp] theorem State.setStatus_reg (s : State) (v : Status) (q : Reg32) : (s.setStatus v).reg q = s.reg q := rfl
@[simp] theorem State.emit_reg (s : State) (e : DiagEvent) (q : Reg32) : (s.emit e).reg q = s.reg q := rfl

@[simp] theorem State.regOrNone_none (s : State) : s.regOrNone none = 0#32 := rfl

@[simp] theorem State.regOrNone_some (s : State) (r : Reg32) : s.regOrNone (some r) = s.reg r := rfl

end Sys2Proof.Machine
end

