-- ==== Sys2Proof/Laws/Ops.lean ====
section
/-! SUPPORT. For each shared operation, once, everything it can do. Later proofs cite these lemmas and never unfold the
operation. -/

namespace Sys2Proof.Machine

/-! ### Sequencing and the end of a rule -/

@[simp] theorem Res.andThen_done {α β : Type} (v : α) (s : State) (f : α → State → Res β) :
    (Res.done v s).andThen f = f v s := rfl

@[simp] theorem Res.andThen_raised {α β : Type} (r : Raise) (s : State) (f : α → State → Res β) :
    (Res.raised r s : Res α).andThen f = .raised r s := rfl

@[simp] theorem Res.finish_done (u : Unit) (s : State) : (Res.done u s).finish = .next s := rfl

@[simp] theorem Res.finish_raised (r : Raise) (s : State) : (Res.raised r s : Res Unit).finish = takeRaise r s := rfl

/-- A rule ends in a next state exactly when it completes. -/
theorem Res.finish_eq_next {x : Res Unit} {t : State} : x.finish = .next t ↔ x = .done () t := by
  cases x <;> simp [takeRaise]

/-- A rule ends in a fault exactly when it raises. -/
theorem Res.finish_eq_fault {x : Res Unit} {f : Fault} :
    x.finish = .fault f ↔ ∃ r s, x = .raised r s ∧ f = r.fault (raiseLeft r s) := by
  cases x <;> simp [takeRaise, eq_comm]

/-- A rule never ends in a refusal. -/
theorem Res.finish_ne_refused (x : Res Unit) (r : Refusal) : x.finish ≠ .refused r := by
  cases x <;> simp [takeRaise]

/-- A sequence completes exactly when both parts do. -/
theorem Res.andThen_eq_done {α β : Type} {x : Res α} {f : α → State → Res β} {v : β} {t : State} :
    x.andThen f = .done v t ↔ ∃ u s, x = .done u s ∧ f u s = .done v t := by
  cases x <;> simp

/-- A sequence raises exactly when its first part does, or the second does after the first completed. -/
theorem Res.andThen_eq_raised {α β : Type} {x : Res α} {f : α → State → Res β} {r : Raise} {t : State} :
    x.andThen f = .raised r t ↔ x = .raised r t ∨ ∃ u s, x = .done u s ∧ f u s = .raised r t := by
  cases x <;> simp

@[simp] theorem Raise.fault_left (r : Raise) (s : State) : (r.fault s).left = s := by cases r <;> rfl

@[simp] theorem Raise.fault_raise (r : Raise) (s : State) : (r.fault s).raise = r := by cases r <;> rfl

@[simp] theorem HaltReason.raiseLeft_self (r : HaltReason) (s : State) :
    raiseLeft r.raise s = s.setStatus (.halted r) := by cases r <;> rfl

/-- Raising changes `status` only, and only for the two halting outcomes. -/
theorem raiseLeft_eq (r : Raise) (s : State) : raiseLeft r s = s.setStatus (raiseLeft r s).status := by
  cases r <;> rfl

/-! ### Memory and stack primitives -/

/-- Everything `MemRead` can do (R73). -/
theorem memRead_cases (a : Word) (s : State) :
    (s.mem.inBounds a.toNat 4 ∧ memRead a s = .done (s.mem.read32 a.toNat) s) ∨
      (¬ s.mem.inBounds a.toNat 4 ∧ memRead a s = .raised (.memoryFault a .dword .read) s) := by
  unfold memRead
  split
  · exact .inl ⟨‹_›, rfl⟩
  · exact .inr ⟨‹_›, rfl⟩

/-- Everything `MemWrite` can do (R74). -/
theorem memWrite_cases (a v : Word) (s : State) :
    (s.mem.inBounds a.toNat 4 ∧ memWrite a v s = .done () (s.setMem (s.mem.write32 a.toNat v))) ∨
      (¬ s.mem.inBounds a.toNat 4 ∧ memWrite a v s = .raised (.memoryFault a .dword .write) s) := by
  unfold memWrite
  split
  · exact .inl ⟨‹_›, rfl⟩
  · exact .inr ⟨‹_›, rfl⟩

/-- The state after a push that completes. -/
def pushed (v : Word) (s : State) : State :=
  (s.setReg .esp (s.reg .esp - 4#32)).setMem (s.mem.write32 (s.reg .esp - 4#32).toNat v)

/-- Everything `Push` can do (R190). -/
theorem push_cases (v : Word) (s : State) :
    (s.mem.inBounds (s.reg .esp - 4#32).toNat 4 ∧ push v s = .done () (pushed v s)) ∨
      (¬ s.mem.inBounds (s.reg .esp - 4#32).toNat 4 ∧
        push v s = .raised (.memoryFault (s.reg .esp - 4#32) .dword .write)
          (s.setReg .esp (s.reg .esp - 4#32))) :=
  memWrite_cases (s.reg .esp - 4#32) v (s.setReg .esp (s.reg .esp - 4#32))

/-- Everything `Pop` can do (R191). -/
theorem pop_cases (s : State) :
    (s.mem.inBounds (s.reg .esp).toNat 4 ∧
      pop s = .done (s.mem.read32 (s.reg .esp).toNat) (s.setReg .esp (s.reg .esp + 4#32))) ∨
      (¬ s.mem.inBounds (s.reg .esp).toNat 4 ∧ pop s = .raised (.memoryFault (s.reg .esp) .dword .read) s) := by
  unfold pop
  rcases memRead_cases (s.reg .esp) s with ⟨h, e⟩ | ⟨h, e⟩
  · exact .inl ⟨h, by rw [e]; rfl⟩
  · exact .inr ⟨h, by rw [e]; rfl⟩

/-! ### Operands -/

/-- Everything the resolver can do: it reads registers only and changes nothing (R84, R87). -/
theorem resolve_cases (p : MemParts) (s : State) :
    (∃ a, effectiveAddress p s = .ok a ∧ resolve p s = .done a s) ∨
      (∃ k, effectiveAddress p s = .error k ∧ resolve p s = .raised (.contractViolation k) s) := by
  unfold resolve
  cases h : effectiveAddress p s with
  | ok a => exact .inl ⟨a, rfl, rfl⟩
  | error k => exact .inr ⟨k, rfl, rfl⟩

/-- Without base and index and with scale field 00, the address is the displacement under every policy (R84). -/
theorem effectiveAddress_plain (d : Word) (s : State) : effectiveAddress ⟨none, none, 0#2, d⟩ s = .ok d := by
  unfold effectiveAddress
  cases s.policies.eaBase <;> simp

/-- A moffs operand cannot raise. -/
theorem resolve_moffs (d : Word) (s : State) : resolve (moffsParts d) s = .done d s := by
  unfold resolve moffsParts
  rw [effectiveAddress_plain]

/-- The resolver never raises the host's own violation. -/
theorem effectiveAddress_ne_unsupported (p : MemParts) (s : State) :
    effectiveAddress p s ≠ .error .unsupportedRegister := by
  unfold effectiveAddress
  split
  · simp
  · cases s.policies.eaBase with
    | add => simp
    | ignore => simp
    | violation => by_cases h : p.base.isSome <;> simp [h]

/-! ### Calls -/

/-- Everything the call of R221 and R224 can do. -/
theorem callTo_cases (target : Word) (s : State) :
    (s.mem.inBounds (s.reg .esp - 4#32).toNat 4 ∧ callTo target s = .done () ((pushed s.eip s).setEip target)) ∨
      (¬ s.mem.inBounds (s.reg .esp - 4#32).toNat 4 ∧
        callTo target s = .raised (.memoryFault (s.reg .esp - 4#32) .dword .write)
          (s.setReg .esp (s.reg .esp - 4#32))) := by
  unfold callTo
  rcases push_cases s.eip s with ⟨h, e⟩ | ⟨h, e⟩
  · exact .inl ⟨h, by rw [e]; rfl⟩
  · exact .inr ⟨h, by rw [e]; rfl⟩

/-- Everything a handler's invocation can do (R225, R226). -/
theorem invoke_cases (sem : HandlerSem) (h : HandlerId) (s : State) :
    (∃ l, sem h s.handlerDraw s = .returned l ∧ invoke sem h s = .done () (s.afterHandler l)) ∨
      (∃ l, sem h s.handlerDraw s = .failed l ∧ invoke sem h s = .raised (.hostFailure h) (s.afterHandler l)) := by
  unfold invoke
  cases e : sem h s.handlerDraw s with
  | returned l => exact .inl ⟨l, rfl, rfl⟩
  | failed l => exact .inr ⟨l, rfl, rfl⟩

/-- Everything the import multiplexer can do (R222 to R227). -/
theorem callThrough_cases (sem : HandlerSem) (slot target : Word) (s : State) :
    (importLookup s.imports target = .absent ∧ callThrough sem slot target s = callTo target s) ∨
      (∃ h, importLookup s.imports target = .handler h ∧ callThrough sem slot target s = invoke sem h s) ∨
      (importLookup s.imports target = .unhandled ∧
        callThrough sem slot target s = .done () (s.emit (.unimplementedImport slot target))) := by
  unfold callThrough
  cases e : importLookup s.imports target with
  | absent => exact .inl ⟨rfl, rfl⟩
  | handler h => exact .inr (.inl ⟨h, rfl, rfl⟩)
  | unhandled => exact .inr (.inr ⟨rfl, rfl⟩)

/-! ### The step -/

/-- Everything a step can do: the four stages of R171. -/
theorem step_cases (s : State) :
    (∃ r, s.status = .halted r ∧ step s = takeRaise r.raise s) ∨
      (∃ r, s.status = .running ∧ fetchDecode s = .raised r ∧ step s = takeRaise r s) ∨
      (∃ d, s.status = .running ∧ fetchDecode s = .decoded d ∧ step s = exec d.instr (s.setEip d.nextIp)) := by
  unfold step
  cases hs : s.status with
  | halted r => exact .inl ⟨r, rfl, rfl⟩
  | running =>
    cases hf : fetchDecode s with
    | raised r => exact .inr (.inl ⟨r, rfl, rfl, rfl⟩)
    | decoded d => exact .inr (.inr ⟨d, rfl, rfl, rfl⟩)

/-- Everything stage 1 can do (R163 to R165). -/
theorem fetchDecode_cases (s : State) :
    (∃ i rest, decode s.policies.enterLevel (fetchWindow s) = .decoded i rest ∧
      fetchDecode s = .decoded (decodedAt s.eip (fetchWindow s) i)) ∨
      (∃ bytes, decode s.policies.enterLevel (fetchWindow s) = .unsupported bytes ∧
        fetchDecode s = .raised (.unsupportedInstruction s.eip bytes)) ∨
      (decode s.policies.enterLevel (fetchWindow s) = .short ∧
        fetchDecode s = .raised
          (.memoryFault (s.eip + BitVec.ofNat 32 (fetchWindow s).length) .byte .fetch)) := by
  unfold fetchDecode
  cases h : decode s.policies.enterLevel (fetchWindow s) with
  | decoded i rest => exact .inl ⟨i, rest, rfl, rfl⟩
  | unsupported bytes => exact .inr (.inl ⟨bytes, rfl, rfl⟩)
  | short => exact .inr (.inr ⟨rfl, rfl⟩)

end Sys2Proof.Machine
end

