-- ==== Sys2Proof/Laws/PerInstr.lean ====
section
/-! SUPPORT. The per-instruction family `EncodedLength`: the encoder writes as many bytes as R122 gives the form, at least 1
and at most 11 (R9). -/

namespace Sys2Proof.Laws

theorem leBytes_length (v : Word) : (leBytes v).length = 4 := rfl

/-- A memory operand is its ModRM byte and the `L(m)` bytes of R122. -/
theorem encodeMem_length (reg : BitVec 3) (m : MemOperand) : (encodeMem reg m).length = 1 + m.tail := by
  cases m <;> rfl

theorem tail_le (m : MemOperand) : m.tail ≤ 5 := by cases m <;> simp [MemOperand.tail]

namespace EncodedLength

/-- The encoding of `i` has the length of R122, which lies between 1 and 11. -/
def Statement (i : Instr) : Prop := (encode i).length = i.length ∧ 1 ≤ i.length ∧ i.length ≤ maxLength

theorem enter (frame : Half) (level : Byte) : Statement (.enter frame level) := ⟨rfl, by simp [Instr.length], by simp [Instr.length, maxLength]⟩

theorem callRel32 (rel : Word) : Statement (.callRel32 rel) := ⟨rfl, by simp [Instr.length], by simp [Instr.length, maxLength]⟩

theorem callM32 (m : MemOperand) : Statement (.callM32 m) := by
  have := tail_le m
  simp only [Statement, encode, Instr.length, maxLength, List.length_cons, encodeMem_length]
  omega

theorem ret : Statement .ret := ⟨rfl, by simp [Instr.length], by simp [Instr.length, maxLength]⟩

theorem jmpRel32 (rel : Word) : Statement (.jmpRel32 rel) := ⟨rfl, by simp [Instr.length], by simp [Instr.length, maxLength]⟩

theorem pushImm8 (imm : Byte) : Statement (.pushImm8 imm) := ⟨rfl, by simp [Instr.length], by simp [Instr.length, maxLength]⟩

theorem pushImm32 (imm : Word) : Statement (.pushImm32 imm) := ⟨rfl, by simp [Instr.length], by simp [Instr.length, maxLength]⟩

theorem pushR32 (r : Reg32) : Statement (.pushR32 r) := ⟨rfl, by simp [Instr.length], by simp [Instr.length, maxLength]⟩

theorem pushM32 (m : MemOperand) : Statement (.pushM32 m) := by
  have := tail_le m
  simp only [Statement, encode, Instr.length, maxLength, List.length_cons, encodeMem_length]
  omega

theorem popR32 (r : Reg32) : Statement (.popR32 r) := ⟨rfl, by simp [Instr.length], by simp [Instr.length, maxLength]⟩

theorem movM32Imm32 (m : MemOperand) (imm : Word) : Statement (.movM32Imm32 m imm) := by
  have := tail_le m
  simp only [Statement, encode, Instr.length, maxLength, List.length_cons, List.length_append, encodeMem_length,
    leBytes_length]
  omega

theorem movMoffs32Eax (moffs : Word) : Statement (.movMoffs32Eax moffs) := ⟨rfl, by simp [Instr.length], by simp [Instr.length, maxLength]⟩

theorem movEaxMoffs32 (moffs : Word) : Statement (.movEaxMoffs32 moffs) := ⟨rfl, by simp [Instr.length], by simp [Instr.length, maxLength]⟩

theorem movRm32R32 (dst src : Reg32) : Statement (.movRm32R32 dst src) := ⟨rfl, by simp [Instr.length], by simp [Instr.length, maxLength]⟩

theorem movR32Rm32 (dst src : Reg32) : Statement (.movR32Rm32 dst src) := ⟨rfl, by simp [Instr.length], by simp [Instr.length, maxLength]⟩

theorem andR32Imm8 (r : Reg32) (imm : Byte) : Statement (.andR32Imm8 r imm) := ⟨rfl, by simp [Instr.length], by simp [Instr.length, maxLength]⟩

theorem subR32Imm32 (r : Reg32) (imm : Word) : Statement (.subR32Imm32 r imm) := ⟨rfl, by simp [Instr.length], by simp [Instr.length, maxLength]⟩

theorem leaR32M (dst : Reg32) (m : MemOperand) : Statement (.leaR32M dst m) := by
  have := tail_le m
  simp only [Statement, encode, Instr.length, maxLength, List.length_cons, encodeMem_length]
  omega

end EncodedLength

end Sys2Proof.Laws
end

