-- ==== Sys2Proof/Tests/Slice0.lean ====
section
/-! SUPPORT. Tests on fixed values. Expected results are those of spec/95_test_vectors.md (the id stands in each docstring)
or hand calculation from the rule named; none is the model's own answer. Then, for each statement with hypotheses, a state
and operands that meet them (`test_witness_…`). -/

namespace Sys2Proof.Tests

open Sys2Proof.Machine Sys2Proof.Safety

/-! ### Helpers -/

/-- The start state of 95_test_vectors.md: `MEM_SIZE = 0x200000`, eip = 0x1000, all else as after construction. -/
def start : State := { State.reset with eip := 0x1000#32, mem := ⟨0x200000, []⟩ }

/-- The same with `MEM_SIZE = 0x2000`. -/
def small : State := { start with mem := ⟨0x2000, []⟩ }

/-- Bytes stored at eip. -/
def withCode (bs : List Byte) (s : State) : State := s.setMem (storeBytes s.mem s.eip bs)

/-- The u32 `v` stored at `a`. -/
def withWord (a v : Word) (s : State) : State := s.setMem (s.mem.write32 a.toNat v)

/-- Other policies. -/
def withPolicies (p : Policies) (s : State) : State := { s with policies := p }

/-- One import. -/
def withImport (target : Word) (b : ImportBinding) (s : State) : State := { s with imports := [(target, b)] }

/-- The next state, if that is the outcome. -/
def nextOf : Host.Outcome State Fault Refusal → Option State
  | .next t => some t
  | _ => none

/-- The outcome raised and the machine left, if that is how the step ends. -/
def faultOf : Host.Outcome State Fault Refusal → Option (Raise × State)
  | .fault f => some (f.raise, f.left)
  | _ => none

theorem exists_next {o : Host.Outcome State Fault Refusal} (h : (nextOf o).isSome = true) : ∃ t, o = .next t := by
  cases o with
  | next t => exact ⟨t, rfl⟩
  | fault f => cases h
  | refused r => cases h

theorem exists_fault {o : Host.Outcome State Fault Refusal} {r : Raise} (h : (faultOf o).map (·.1) = some r) :
    ∃ f, o = .fault f ∧ f.raise = r := by
  cases o with
  | next t => cases h
  | fault f => exact ⟨f, rfl, Option.some.inj h⟩
  | refused r => cases h

theorem eq_fault {o : Host.Outcome State Fault Refusal} {r : Raise} {t : State} (h : faultOf o = some (r, t)) :
    o = .fault (r.fault t) := by
  cases o with
  | next t => cases h
  | fault f =>
    obtain ⟨rfl, rfl⟩ := Prod.mk.inj (Option.some.inj h)
    cases f <;> rfl
  | refused r => cases h

/-! ### WellFormed: an ill-formed term for each check, and its neighbour -/

theorem test_wf_base_esp : (MemOperand.base .esp).wellFormed = false := by decide
theorem test_wf_base_ebp : (MemOperand.base .ebp).wellFormed = false := by decide
theorem test_wf_base_esi : (MemOperand.base .esi).wellFormed = true := by decide
theorem test_wf_disp8_esp : (MemOperand.baseDisp8 .esp 0#8).wellFormed = false := by decide
theorem test_wf_disp8_ebp : (MemOperand.baseDisp8 .ebp 0#8).wellFormed = true := by decide
theorem test_wf_disp32_esp : (MemOperand.baseDisp32 .esp 0#32).wellFormed = false := by decide
theorem test_wf_sib_base_ebp : (MemOperand.sib ⟨0#2, none, .ebp⟩).wellFormed = false := by decide
theorem test_wf_sib_index_esp : (MemOperand.sib ⟨0#2, some .esp, .eax⟩).wellFormed = false := by decide
theorem test_wf_sibNoBase_index_esp : (MemOperand.sibNoBase 0#2 (some .esp) 0#32).wellFormed = false := by decide
theorem test_wf_sibDisp8_index_esp : (MemOperand.sibDisp8 ⟨0#2, some .esp, .ebp⟩ 0#8).wellFormed = false := by decide
theorem test_wf_sibDisp32_index_esp : (MemOperand.sibDisp32 ⟨0#2, some .esp, .ebp⟩ 0#32).wellFormed = false := by decide
theorem test_wf_enter_level : (Instr.enter 8#16 1#8).wellFormed .unsupported = false := by decide
theorem test_wf_enter_level_ignored : (Instr.enter 8#16 1#8).wellFormed .ignore = true := by decide
theorem test_wf_call_index : (Instr.callM32 (.sib ⟨0#2, some .ebx, .eax⟩)).wellFormed .ignore = false := by decide
theorem test_wf_call_operand : (Instr.callM32 (.base .esp)).wellFormed .ignore = false := by decide
theorem test_wf_push_index : (Instr.pushM32 (.sib ⟨0#2, some .ebx, .eax⟩)).wellFormed .ignore = true := by decide
theorem test_wf_push_operand : (Instr.pushM32 (.base .ebp)).wellFormed .ignore = false := by decide
theorem test_wf_mov_operand : (Instr.movM32Imm32 (.base .esp) 0#32).wellFormed .ignore = false := by decide
theorem test_wf_lea_operand : (Instr.leaR32M .eax (.base .esp)).wellFormed .ignore = false := by decide

/-! ### Decoding: bytes written out from R112 to R123; every constructor, every addressing form -/

/-- S19. -/
theorem test_decode_enter : decode .ignore [0xC8#8, 0x08#8, 0x00#8, 0x00#8] = .decoded (.enter 8#16 0#8) [] := by decide
/-- L1.3. -/
theorem test_decode_callRel32 :
    decode .ignore [0xE8#8, 0xF9#8, 0x0F#8, 0x00#8, 0x00#8] = .decoded (.callRel32 0x00000FF9#32) [] := by decide
/-- L1.5: mod 00, reg 010, rm 101. -/
theorem test_decode_callM32 :
    decode .ignore [0xFF#8, 0x15#8, 0x00#8, 0x20#8, 0x00#8, 0x00#8] = .decoded (.callM32 (.disp32 0x2000#32)) [] := by
  decide
theorem test_decode_ret : decode .ignore [0xC3#8, 0x90#8] = .decoded .ret [0x90#8] := by decide
/-- T7. -/
theorem test_decode_jmpRel32 :
    decode .ignore [0xE9#8, 0xFB#8, 0xFF#8, 0xFF#8, 0xFF#8] = .decoded (.jmpRel32 0xFFFFFFFB#32) [] := by decide
theorem test_decode_pushImm8 : decode .ignore [0x6A#8, 0x80#8] = .decoded (.pushImm8 0x80#8) [] := by decide
/-- S5. -/
theorem test_decode_pushImm32 :
    decode .ignore [0x68#8, 0x78#8, 0x56#8, 0x34#8, 0x12#8] = .decoded (.pushImm32 0x12345678#32) [] := by decide
/-- S6, S7. -/
theorem test_decode_pushR32 :
    decode .ignore [0x53#8] = .decoded (.pushR32 .ebx) [] ∧ decode .ignore [0x54#8] = .decoded (.pushR32 .esp) [] := by
  decide
/-- S10: mod 01, reg 110, rm 101. -/
theorem test_decode_pushM32 :
    decode .ignore [0xFF#8, 0x75#8, 0xFC#8] = .decoded (.pushM32 (.baseDisp8 .ebp 0xFC#8)) [] := by decide
/-- S8, S11. -/
theorem test_decode_popR32 :
    decode .ignore [0x5C#8] = .decoded (.popR32 .esp) [] ∧ decode .ignore [0x5F#8] = .decoded (.popR32 .edi) [] := by
  decide
/-- D10: eleven bytes, ModRM, SIB, disp32 and imm32. -/
theorem test_decode_movM32Imm32 :
    decode .ignore [0xC7#8, 0x84#8, 0x24#8, 0x00#8, 0x00#8, 0x00#8, 0x00#8, 0x78#8, 0x56#8, 0x34#8, 0x12#8] =
      .decoded (.movM32Imm32 (.sibDisp32 ⟨0#2, none, .esp⟩ 0#32) 0x12345678#32) [] := by decide
theorem test_decode_movMoffs32Eax :
    decode .ignore [0xA3#8, 0x00#8, 0x30#8, 0x00#8, 0x00#8] = .decoded (.movMoffs32Eax 0x3000#32) [] := by decide
theorem test_decode_movEaxMoffs32 :
    decode .ignore [0xA1#8, 0xFE#8, 0x1F#8, 0x00#8, 0x00#8] = .decoded (.movEaxMoffs32 0x1FFE#32) [] := by decide
/-- 89 E5: mod 11, reg 100 (esp), rm 101 (ebp); the destination is rm. -/
theorem test_decode_movRm32R32 : decode .ignore [0x89#8, 0xE5#8] = .decoded (.movRm32R32 .ebp .esp) [] := by decide
/-- M11: mod 11, reg 101 (ebp), rm 100 (esp); the destination is reg. -/
theorem test_decode_movR32Rm32 : decode .ignore [0x8B#8, 0xEC#8] = .decoded (.movR32Rm32 .ebp .esp) [] := by decide
/-- A2. -/
theorem test_decode_andR32Imm8 : decode .ignore [0x83#8, 0xE4#8, 0xF0#8] = .decoded (.andR32Imm8 .esp 0xF0#8) [] := by
  decide
/-- A8. -/
theorem test_decode_subR32Imm32 :
    decode .ignore [0x81#8, 0xEC#8, 0x00#8, 0x01#8, 0x00#8, 0x00#8] = .decoded (.subR32Imm32 .esp 0x100#32) [] := by
  decide
/-- M13. -/
theorem test_decode_leaR32M :
    decode .ignore [0x8D#8, 0x45#8, 0xFC#8] = .decoded (.leaR32M .eax (.baseDisp8 .ebp 0xFC#8)) [] := by decide
/-- The other addressing forms of R114: `[ebx]`, `[ecx+disp32]`, M20, M21, D10's row with disp8, M24, M12. -/
theorem test_decode_forms :
    decode .ignore [0x8D#8, 0x03#8] = .decoded (.leaR32M .eax (.base .ebx)) [] ∧
    decode .ignore [0x8D#8, 0x91#8, 0x04#8, 0x03#8, 0x02#8, 0x01#8] =
      .decoded (.leaR32M .edx (.baseDisp32 .ecx 0x01020304#32)) [] ∧
    decode .ignore [0x8D#8, 0x04#8, 0x33#8] = .decoded (.leaR32M .eax (.sib ⟨0#2, some .esi, .ebx⟩)) [] ∧
    decode .ignore [0x8D#8, 0x04#8, 0x25#8, 0x78#8, 0x56#8, 0x34#8, 0x12#8] =
      .decoded (.leaR32M .eax (.sibNoBase 0#2 none 0x12345678#32)) [] ∧
    decode .ignore [0x8D#8, 0x44#8, 0x24#8, 0x08#8] = .decoded (.leaR32M .eax (.sibDisp8 ⟨0#2, none, .esp⟩ 8#8)) [] ∧
    decode .ignore [0x8D#8, 0x84#8, 0x33#8, 0x10#8, 0x00#8, 0x00#8, 0x00#8] =
      .decoded (.leaR32M .eax (.sibDisp32 ⟨0#2, some .esi, .ebx⟩ 0x10#32)) [] ∧
    decode .ignore [0x8D#8, 0x04#8, 0x85#8, 0x00#8, 0x00#8, 0x00#8, 0x00#8] =
      .decoded (.leaR32M .eax (.sibNoBase 2#2 (some .eax) 0#32)) [] := by decide
/-- D1, D2, D3, D4, D5, T10, T11, M2, M3, M10, M25, A6, A7, A12. -/
theorem test_decode_unsupported :
    decode .ignore [0x66#8, 0x50#8] = .unsupported [0x66#8] ∧
    decode .ignore [0xF0#8, 0xFF#8] = .unsupported [0xF0#8] ∧
    decode .ignore [0x0F#8, 0x0B#8] = .unsupported [0x0F#8] ∧
    decode .ignore [0x90#8] = .unsupported [0x90#8] ∧
    decode .ignore [0xB8#8, 0x01#8] = .unsupported [0xB8#8] ∧
    decode .ignore [0xFF#8, 0xD0#8] = .unsupported [0xFF#8, 0xD0#8] ∧
    decode .ignore [0xFF#8, 0x14#8, 0x85#8, 0x00#8, 0x20#8, 0x40#8, 0x00#8, 0x90#8] =
      .unsupported [0xFF#8, 0x14#8, 0x85#8, 0x00#8, 0x20#8, 0x40#8, 0x00#8] ∧
    decode .ignore [0xC7#8, 0xC0#8] = .unsupported [0xC7#8, 0xC0#8] ∧
    decode .ignore [0xC7#8, 0x0D#8] = .unsupported [0xC7#8, 0x0D#8] ∧
    decode .ignore [0x89#8, 0x45#8] = .unsupported [0x89#8, 0x45#8] ∧
    decode .ignore [0x8D#8, 0xC0#8] = .unsupported [0x8D#8, 0xC0#8] ∧
    decode .ignore [0x83#8, 0x20#8] = .unsupported [0x83#8, 0x20#8] ∧
    decode .ignore [0x83#8, 0xE9#8] = .unsupported [0x83#8, 0xE9#8] ∧
    decode .ignore [0x81#8, 0x2D#8] = .unsupported [0x81#8, 0x2D#8] := by decide

/-! ### One step of each instruction -/

/-- S19. -/
theorem test_enter :
    (nextOf (step (withCode [0xC8#8, 0x08#8, 0x00#8, 0x00#8]
      ((start.setReg .esp 0x100000#32).setReg .ebp 0x2000#32)))).map
        (fun t => (t.reg .ebp, t.reg .esp, t.mem.read32 0xFFFFC, t.eip)) =
      some (0xFFFFC#32, 0xFFFF4#32, 0x2000#32, 0x1004#32) := by decide
/-- S23: the push faults before ebp is written, and esp stays lowered. -/
theorem test_enter_faults :
    (faultOf (step (withCode [0xC8#8, 0x04#8, 0x00#8, 0x00#8]
      ((small.setReg .esp 2#32).setReg .ebp 0x800#32)))).map
        (fun x => (x.1, x.2.reg .esp, x.2.reg .ebp, x.2.eip, x.2.status)) =
      some (.memoryFault 0xFFFFFFFE#32 .dword .write, 0xFFFFFFFE#32, 0x800#32, 0x1004#32, .running) := by decide
/-- S1. -/
theorem test_pushImm8_sign :
    (nextOf (step (withCode [0x6A#8, 0x80#8] (start.setReg .esp 0x100000#32)))).map
        (fun t => (t.reg .esp, t.mem.read32 0xFFFFC, t.eip)) =
      some (0xFFFFC#32, 0xFFFFFF80#32, 0x1002#32) := by decide
/-- S2. -/
theorem test_pushImm8_zero :
    (nextOf (step (withPolicies ⟨.add, .zero, .zero, .ignore⟩
      (withCode [0x6A#8, 0x80#8] (start.setReg .esp 0x100000#32))))).map (fun t => t.mem.read32 0xFFFFC) =
      some 0x80#32 := by decide
/-- S5. -/
theorem test_pushImm32 :
    (nextOf (step (withCode [0x68#8, 0x78#8, 0x56#8, 0x34#8, 0x12#8] (start.setReg .esp 0x100000#32)))).map
        (fun t => (t.reg .esp, t.mem.read32 0xFFFFC, t.eip)) =
      some (0xFFFFC#32, 0x12345678#32, 0x1005#32) := by decide
/-- S7: the value before the decrement. -/
theorem test_pushR32_esp :
    (nextOf (step (withCode [0x54#8] (start.setReg .esp 0x100000#32)))).map
        (fun t => (t.reg .esp, t.mem.read32 0xFFFFC)) = some (0xFFFFC#32, 0x100000#32) := by decide
/-- S9: the address uses esp before the push. -/
theorem test_pushM32_esp :
    (nextOf (step (withWord 0x100000#32 0xAABBCCDD#32
      (withCode [0xFF#8, 0x34#8, 0x24#8] (start.setReg .esp 0x100000#32))))).map
        (fun t => (t.reg .esp, t.mem.read32 0xFFFFC, t.eip)) =
      some (0xFFFFC#32, 0xAABBCCDD#32, 0x1003#32) := by decide
/-- S16: the read comes before the push. -/
theorem test_pushM32_faults :
    (faultOf (step (withCode [0xFF#8, 0x35#8, 0x00#8, 0x30#8, 0x00#8, 0x00#8] (small.setReg .esp 0x1000#32)))).map
        (fun x => (x.1, x.2.reg .esp, x.2.eip)) =
      some (.memoryFault 0x3000#32 .dword .read, 0x1000#32, 0x1006#32) := by decide
/-- S8: pop esp leaves the value read. -/
theorem test_popR32_esp :
    (nextOf (step (withWord 0xFFFFC#32 0x12345678#32 (withCode [0x5C#8] (start.setReg .esp 0xFFFFC#32))))).map
        (fun t => t.reg .esp) = some 0x12345678#32 := by decide
/-- S11. -/
theorem test_popR32_edi :
    (nextOf (step (withWord 0xFFFFC#32 0x55#32 (withCode [0x5F#8] (start.setReg .esp 0xFFFFC#32))))).map
        (fun t => (t.reg .edi, t.reg .esp, t.mem.read32 0xFFFFC)) = some (0x55#32, 0x100000#32, 0x55#32) := by decide
/-- T3: the target wraps. -/
theorem test_callRel32 :
    (nextOf (step (withCode [0xE8#8, 0x00#8, 0xF0#8, 0xFF#8, 0xFF#8] (start.setReg .esp 0x100000#32)))).map
        (fun t => (t.eip, t.reg .esp, t.mem.read32 0xFFFFC)) = some (0x5#32, 0xFFFFC#32, 0x1005#32) := by decide
/-- T4: eip is next_ip, not the target. -/
theorem test_callRel32_faults :
    (faultOf (step (withCode [0xE8#8, 0xF9#8, 0x0F#8, 0x00#8, 0x00#8] small))).map
        (fun x => (x.1, x.2.reg .esp, x.2.eip)) =
      some (.memoryFault 0xFFFFFFFC#32 .dword .write, 0xFFFFFFFC#32, 0x1005#32) := by decide
/-- T18. -/
theorem test_callM32_absent :
    (nextOf (step (withWord 0x2000#32 0x3000#32 (withCode [0xFF#8, 0x53#8, 0x04#8]
      ((start.setReg .esp 0x100000#32).setReg .ebx 0x1FFC#32))))).map
        (fun t => (t.eip, t.reg .esp, t.mem.read32 0xFFFFC)) = some (0x3000#32, 0xFFFFC#32, 0x1003#32) := by decide
/-- T13. -/
theorem test_callM32_unhandled :
    (nextOf (step (withImport 0x70000002#32 .unhandled (withWord 0x2000#32 0x70000002#32
      (withCode [0xFF#8, 0x15#8, 0x00#8, 0x20#8, 0x00#8, 0x00#8] (start.setReg .esp 0x100000#32)))))).map
        (fun t => (t.eip, t.reg .esp, t.diag)) =
      some (0x1006#32, 0x100000#32, [.unimplementedImport 0x2000#32 0x70000002#32]) := by decide
/-- T5. -/
theorem test_ret :
    (nextOf (step (withWord 0xFFFF8#32 0x400007#32 (withCode [0xC3#8] (start.setReg .esp 0xFFFF8#32))))).map
        (fun t => (t.eip, t.reg .esp)) = some (0x400007#32, 0xFFFFC#32) := by decide
/-- T6. -/
theorem test_ret_faults :
    (faultOf (step (withCode [0xC3#8] (small.setReg .esp 0x1FFD#32)))).map
        (fun x => (x.1, x.2.reg .esp, x.2.eip)) =
      some (.memoryFault 0x1FFD#32 .dword .read, 0x1FFD#32, 0x1001#32) := by decide
/-- T8. -/
theorem test_jmpRel32 :
    (nextOf (step (withCode [0xE9#8, 0xFB#8, 0xEF#8, 0xFF#8, 0xFF#8] start))).map (fun t => t.eip) = some 0#32 := by
  decide
/-- D10: an instruction that overwrites its own bytes. -/
theorem test_movM32Imm32_self :
    (nextOf (step (withCode [0xC7#8, 0x84#8, 0x24#8, 0x00#8, 0x00#8, 0x00#8, 0x00#8, 0x78#8, 0x56#8, 0x34#8, 0x12#8]
      (start.setReg .esp 0x1000#32)))).map (fun t => (t.mem.read32 0x1000, t.mem.byte 0x1004, t.eip)) =
      some (0x12345678#32, 0x00#8, 0x100B#32) := by decide
/-- M5. -/
theorem test_movMoffs32Eax :
    (nextOf (step (withCode [0xA3#8, 0x00#8, 0x30#8, 0x00#8, 0x00#8] (start.setReg .eax 0xCAFEBABE#32)))).map
        (fun t => (t.mem.byte 0x3000, t.mem.byte 0x3003, t.eip)) = some (0xBE#8, 0xCA#8, 0x1005#32) := by decide
/-- M8. -/
theorem test_movEaxMoffs32 :
    (nextOf (step (withWord 0x3000#32 0xCAFEBABE#32 (withCode [0xA1#8, 0x00#8, 0x30#8, 0x00#8, 0x00#8] start)))).map
        (fun t => (t.reg .eax, t.eip)) = some (0xCAFEBABE#32, 0x1005#32) := by decide
/-- M7: no wrap to address 0. -/
theorem test_movEaxMoffs32_top :
    (faultOf (step (withCode [0xA1#8, 0xFF#8, 0xFF#8, 0xFF#8, 0xFF#8] small))).map (fun x => (x.1, x.2.eip)) =
      some (.memoryFault 0xFFFFFFFF#32 .dword .read, 0x1005#32) := by decide
/-- 89 E5: ebp takes esp. -/
theorem test_movRm32R32 :
    (nextOf (step (withCode [0x89#8, 0xE5#8] ((start.setReg .esp 7#32).setReg .ebp 9#32)))).map
        (fun t => (t.reg .ebp, t.reg .esp)) = some (7#32, 7#32) := by decide
/-- M11. -/
theorem test_movR32Rm32 :
    (nextOf (step (withCode [0x8B#8, 0xEC#8] ((start.setReg .esp 7#32).setReg .ebp 9#32)))).map
        (fun t => (t.reg .ebp, t.reg .esp)) = some (7#32, 7#32) := by decide
/-- A2. -/
theorem test_andR32Imm8_zero :
    (nextOf (step (withCode [0x83#8, 0xE4#8, 0xF0#8] (start.setReg .esp 0xFFFFC#32)))).map (fun t => t.reg .esp) =
      some 0xF0#32 := by decide
/-- A3. -/
theorem test_andR32Imm8_sign :
    (nextOf (step (withPolicies ⟨.add, .sign, .sign, .ignore⟩
      (withCode [0x83#8, 0xE4#8, 0xF0#8] (start.setReg .esp 0xFFFFC#32))))).map (fun t => t.reg .esp) =
      some 0xFFFF0#32 := by decide
/-- A9. -/
theorem test_subR32Imm32 :
    (nextOf (step (withCode [0x81#8, 0xE9#8, 0x02#8, 0x00#8, 0x00#8, 0x00#8] (start.setReg .ecx 1#32)))).map
        (fun t => t.reg .ecx) = some 0xFFFFFFFF#32 := by decide
/-- M24. -/
theorem test_leaR32M :
    (nextOf (step (withCode [0x8D#8, 0x84#8, 0x33#8, 0x10#8, 0x00#8, 0x00#8, 0x00#8]
      ((start.setReg .ebx 0x10#32).setReg .esi 0x20#32)))).map (fun t => (t.reg .eax, t.eip)) =
      some (0x40#32, 0x1007#32) := by decide
/-- M14. -/
theorem test_leaR32M_base_ignored :
    (nextOf (step (withPolicies ⟨.ignore, .sign, .zero, .ignore⟩
      (withCode [0x8D#8, 0x45#8, 0xFC#8] (start.setReg .ebp 0xFFFF0#32))))).map (fun t => t.reg .eax) =
      some 0xFFFFFFFC#32 := by decide

/-! ### The other outcomes -/

/-- M12, then D13: the violation halts, and the next step returns it again. -/
theorem test_scale_violation :
    (faultOf (step (withCode [0x8D#8, 0x04#8, 0x85#8, 0x00#8, 0x00#8, 0x00#8, 0x00#8] (start.setReg .eax 1#32)))).map
        (fun x => (x.1, x.2.reg .eax, x.2.eip, x.2.status, (faultOf (step x.2)).map (·.1))) =
      some (.contractViolation .scaleNotOne, 1#32, 0x1007#32, .halted (.contractViolation .scaleNotOne),
        some (.contractViolation .scaleNotOne)) := by decide
/-- M15. -/
theorem test_base_violation :
    (faultOf (step (withPolicies ⟨.violation, .sign, .zero, .ignore⟩ (withCode [0x8D#8, 0x45#8, 0xFC#8] start)))).map
        (fun x => (x.1, x.2.eip)) = some (.contractViolation .baseRegister, 0x1003#32) := by decide
/-- S21. -/
theorem test_enter_level_unsupported :
    (faultOf (step (withPolicies ⟨.add, .sign, .zero, .unsupported⟩
      (withCode [0xC8#8, 0x08#8, 0x00#8, 0x01#8] start)))).map (fun x => (x.1, x.2.eip)) =
      some (.unsupportedInstruction 0x1000#32 [0xC8#8, 0x08#8, 0x00#8, 0x01#8], 0x1000#32) := by decide
/-- D6 and D8: the fetch runs off the end of memory. -/
theorem test_fetch_fault :
    (faultOf (step (withCode [0xE8#8] (small.setEip 0x1FFF#32)))).map (fun x => (x.1, x.2.eip)) =
      some (.memoryFault 0x2000#32 .byte .fetch, 0x1FFF#32) ∧
    (faultOf (step (withCode [0xC7#8, 0x05#8] (small.setEip 0x1FFE#32)))).map (fun x => (x.1, x.2.eip)) =
      some (.memoryFault 0x2000#32 .byte .fetch, 0x1FFE#32) := by decide
/-- D7: the verdict needs no further byte. -/
theorem test_unsupported_at_the_end :
    (faultOf (step (withCode [0x90#8] (small.setEip 0x1FFF#32)))).map (fun x => (x.1, x.2.eip)) =
      some (.unsupportedInstruction 0x1FFF#32 [0x90#8], 0x1FFF#32) := by decide
/-- R300. -/
theorem test_codes :
    StepOutcome.ok.code = 0 ∧ (StepOutcome.raised (.unsupportedInstruction 0#32 [])).code = 1 ∧
    (StepOutcome.raised (.memoryFault 0#32 .byte .fetch)).code = 2 ∧
    (StepOutcome.raised (.contractViolation .scaleNotOne)).code = 3 ∧ (StepOutcome.raised (.hostFailure 0)).code = 4 := by
  decide

/-! ### Handlers -/

/-- A handler's answer that leaves the machine as it is, but for eax and eip. -/
def leaves (eax eip : Word) (s : State) : HandlerLeft where
  gpr := s.gpr.set .eax eax
  eip := eip
  seg := s.seg
  memSize := ⟨0x2004, by decide⟩
  cells := s.mem.cells
  loadBase := s.loadBase
  events := []

/-- `HANDLER_SEM` of T15 (handler 1) and of T14 (handler 2, which fails). -/
def sampleSem : HandlerSem := fun h _ s =>
  if h = 1 then .returned (leaves 7#32 0x5000#32 s) else .failed (leaves 0#32 0x1006#32 s)

/-- A call slot at 0x2000 that holds 0x70000001, bound to handler `h`; memory of 0x2004 bytes. -/
def callState (h : HandlerId) : State :=
  withImport 0x70000001#32 (.handler h) (withWord 0x2000#32 0x70000001#32
    { start with mem := ⟨0x2004, []⟩, eip := 0x1006#32 })

/-- T15: the core writes nothing after the handler. -/
theorem test_handler_returns :
    (nextOf (callM32With sampleSem (.disp32 0x2000#32) ((callState 1).setReg .esp 0x2004#32))).map
        (fun t => (t.reg .eax, t.eip, t.reg .esp, t.mem.read32 0x2000, t.handlerDraw)) =
      some (7#32, 0x5000#32, 0x2004#32, 0x70000001#32, 1) := by decide
/-- T14: the failure halts. -/
theorem test_handler_fails :
    (faultOf (callM32With sampleSem (.disp32 0x2000#32) (callState 2))).map (fun x => (x.1, x.2.eip, x.2.status)) =
      some (.hostFailure 2, 0x1006#32, .halted (.hostFailure 2)) := by decide

/-! ### The host's interface and construction -/

/-- R1, R2, R7 of 95_test_vectors.md: bytes 44 33 22 11, a read at an odd address, an overlapping write. -/
theorem test_host_words :
    ((start.mem.write32 0x3000 0x11223344#32).byte 0x3000, (start.mem.write32 0x3000 0x11223344#32).read32 0x3001,
      ((start.mem.write32 0x3000 0x11223344#32).write32 0x3002 0xAABBCCDD#32).read32 0x3000) =
      (0x44#8, 0x00112233#32, 0xCCDD3344#32) := by decide
/-- Writing what an unlisted byte reads as takes the entry out again. -/
theorem test_canonical : (start.mem.write32 0x3000 0x11223344#32).write32 0x3000 0#32 = start.mem := by decide
/-- The reset state is the construction at the parameters log entries 2 to 5 name. -/
theorem test_reset_is_construct : construct resetParams = State.reset := by rfl
/-- The instruction that withFetchWord places is the one the next step runs: jmp rel -5, from reset. -/
theorem test_withFetchWord :
    (nextOf (step (State.reset.withFetchWord 40 0xFFFFFFFBE9))).map (fun t => t.eip) = some 0#32 := by decide

/-! ### Witnesses: for each statement with hypotheses, values that meet them -/

/-- Eleven bytes: `mov dword ptr [esp+0], 0x12345678` (D10). -/
def elevenBytes : List Byte :=
  [0xC7#8, 0x84#8, 0x24#8, 0x00#8, 0x00#8, 0x00#8, 0x00#8, 0x78#8, 0x56#8, 0x34#8, 0x12#8]

/-- esp at the top of a memory of 0x2000 bytes: the word below it is the last one (S13). -/
def canPushState : State := small.setReg .esp 0x2000#32

/-- esp one higher, where a push is out of bounds. -/
def cannotPushState : State := small.setReg .esp 0x2001#32

theorem test_witness_DecodeOfEncode :
    (Instr.enter 8#16 0xFF#8).wellFormed .ignore = true ∧ (Instr.enter 8#16 0#8).wellFormed .unsupported = true ∧
    (Instr.callM32 (.sibDisp32 ⟨3#2, none, .esp⟩ 0#32)).wellFormed .unsupported = true ∧
    (Instr.movM32Imm32 (.sibNoBase 0#2 (some .edi) 0#32) 0#32).wellFormed .ignore = true := by decide

theorem test_witness_EncodeOfDecode :
    decode .unsupported elevenBytes = .decoded (.movM32Imm32 (.sibDisp32 ⟨0#2, none, .esp⟩ 0#32) 0x12345678#32) [] := by
  decide

theorem test_witness_ElevenBytesSettleEveryVerdict : 11 ≤ elevenBytes.length := by decide

theorem test_witness_LegacyPrefixRefused :
    (withCode [0x66#8] (small.setEip 0x1FFF#32)).status = .running ∧
    (withCode [0x66#8] (small.setEip 0x1FFF#32)).mem.inBounds
      (withCode [0x66#8] (small.setEip 0x1FFF#32)).eip.toNat 1 ∧
    (withCode [0x66#8] (small.setEip 0x1FFF#32)).mem.byte
      (withCode [0x66#8] (small.setEip 0x1FFF#32)).eip.toNat = 0x66#8 ∧
    0x66#8 ∈ [0xF0#8, 0xF2#8, 0xF3#8, 0x2E#8, 0x36#8, 0x3E#8, 0x26#8, 0x64#8, 0x65#8, 0x66#8, 0x67#8] := by decide

/-- 0x4F and 0x60 are the neighbours of the push and pop rows. -/
theorem test_witness_UnlistedFirstByteRefused : ∀ b ∈ [0x4F#8, 0x60#8, 0x90#8, 0x66#8],
    ¬ (0x50 ≤ b.toNat ∧ b.toNat ≤ 0x5F) ∧
    b ∉ [0xC8#8, 0xE8#8, 0xC3#8, 0xE9#8, 0x6A#8, 0x68#8, 0xA3#8, 0xA1#8, 0x81#8, 0x83#8, 0x89#8, 0x8B#8, 0x8D#8,
      0xC7#8, 0xFF#8] := by decide

theorem test_witness_ModRMRefusedExactly :
    (0xFF#8 : Byte) ∈ [0x81#8, 0x83#8, 0x89#8, 0x8B#8, 0x8D#8, 0xC7#8, 0xFF#8] ∧
    decode .ignore [0xFF#8, 0xD0#8] = .unsupported [0xFF#8, 0xD0#8] ∧
    decode .ignore [0xFF#8, 0x10#8] ≠ .unsupported [0xFF#8, 0x10#8] := by decide

/-- Each value of `n`: FF 14 85 with disp32, FF 54 with disp8, FF 94 with disp32, FF 14 03 with none; and the clause
without an index, FF 14 25. -/
theorem test_witness_CallWithIndexRefused :
    (∀ x ∈ [(0x14#8, 0x85#8, 4), (0x54#8, 0x03#8, 1), (0x94#8, 0x03#8, 4), (0x14#8, 0x03#8, 0)],
      modField x.1 ≠ 3#2 ∧ regField x.1 = 2#3 ∧ rmField x.1 = 4#3 ∧
      x.2.2 = (if modField x.1 = 1#2 then 1 else if modField x.1 = 2#2 then 4 else if rmField x.2.1 = 5#3 then 4 else 0) ∧
      x.2.2 ≤ [0#8, 0#8, 0#8, 0#8].length ∧ regField x.2.1 ≠ 4#3) ∧
    modField 0x14#8 ≠ 3#2 ∧ regField 0x14#8 = 2#3 ∧ rmField 0x14#8 = 4#3 ∧ regField 0x25#8 = 4#3 ∧
    rmField 0x25#8 = 5#3 := by decide

theorem test_witness_EnterLevelPolicies : (1#8 : Byte) ≠ 0#8 ∧ (0xFF#8 : Byte) ≠ 0#8 := by decide

theorem test_witness_StepRunsTheDecodedInstruction :
    (withCode elevenBytes start).status = .running ∧
    decode (withCode elevenBytes start).policies.enterLevel (fetchWindow (withCode elevenBytes start)) =
      .decoded (.movM32Imm32 (.sibDisp32 ⟨0#2, none, .esp⟩ 0#32) 0x12345678#32) [] := by decide

/-- An instruction that lies across the top of the address space. -/
theorem test_witness_StepRunsTheInstructionInMemory :
    (withCode [0x6A#8, 0x2A#8] (State.reset.setEip 0xFFFFFFFF#32)).status = .running ∧
    (Instr.pushImm8 0x2A#8).wellFormed
      (withCode [0x6A#8, 0x2A#8] (State.reset.setEip 0xFFFFFFFF#32)).policies.enterLevel = true ∧
    ∀ (k : Nat) (b : Byte), (encode (.pushImm8 0x2A#8))[k]? = some b →
      (withCode [0x6A#8, 0x2A#8] (State.reset.setEip 0xFFFFFFFF#32)).mem.inBounds
        ((withCode [0x6A#8, 0x2A#8] (State.reset.setEip 0xFFFFFFFF#32)).eip + BitVec.ofNat 32 k).toNat 1 ∧
      (withCode [0x6A#8, 0x2A#8] (State.reset.setEip 0xFFFFFFFF#32)).mem.byte
        ((withCode [0x6A#8, 0x2A#8] (State.reset.setEip 0xFFFFFFFF#32)).eip + BitVec.ofNat 32 k).toNat = b := by
  refine ⟨by decide, by decide, fun k b h => ?_⟩
  match k, h with
  | 0, h =>
    obtain rfl : b = 0x6A#8 := (Option.some.inj h).symm
    decide
  | 1, h =>
    obtain rfl : b = 0x2A#8 := (Option.some.inj h).symm
    decide
  | k + 2, h => exact absurd h (by simp [encode])

theorem test_witness_FetchFaultIsPrecise :
    step (small.setEip 0x2000#32) = .fault (.memoryFault 0x2000#32 .byte .fetch (small.setEip 0x2000#32)) ∧
    step (withCode [0xE8#8] (small.setEip 0x1FFF#32)) =
      .fault (.memoryFault 0x2000#32 .byte .fetch (withCode [0xE8#8] (small.setEip 0x1FFF#32))) :=
  ⟨eq_fault (r := .memoryFault 0x2000#32 .byte .fetch) (by decide),
    eq_fault (r := .memoryFault 0x2000#32 .byte .fetch) (by decide)⟩

theorem test_witness_EipOutsideMemoryFaults :
    (small.setEip 0x2000#32).status = .running ∧
    ¬ (small.setEip 0x2000#32).mem.inBounds (small.setEip 0x2000#32).eip.toNat 1 := by decide

theorem test_witness_UnsupportedIsPrecise :
    step (withCode [0xFF#8, 0xD0#8] start) =
      .fault (.unsupportedInstruction 0x1000#32 [0xFF#8, 0xD0#8] (withCode [0xFF#8, 0xD0#8] start)) :=
  eq_fault (r := .unsupportedInstruction 0x1000#32 [0xFF#8, 0xD0#8]) (by decide)

theorem test_witness_HaltedStepRepeatsItsOutcome :
    (start.setStatus (.halted (.contractViolation .scaleNotOne))).status =
      .halted (.contractViolation .scaleNotOne) ∧
    (start.setStatus (.halted (.hostFailure 3))).status = .halted (.hostFailure 3) ∧
    ∃ f, step (withCode [0x8D#8, 0x04#8, 0x85#8] start) = .fault f ∧ f.raise.halts = true := by
  refine ⟨rfl, rfl, ?_⟩
  obtain ⟨f, h, e⟩ := exists_fault (o := step (withCode [0x8D#8, 0x04#8, 0x85#8] start))
    (r := .contractViolation .scaleNotOne) (by decide)
  exact ⟨f, h, by rw [e]; rfl⟩

/-- A halting outcome and one that does not halt. -/
theorem test_witness_OnlyHaltingOutcomesHalt :
    (∃ f, step (withCode [0x8D#8, 0x04#8, 0x85#8] start) = .fault f ∧
      f.raise = .contractViolation .scaleNotOne) ∧
    ∃ f, step (withCode [0x90#8] start) = .fault f ∧ f.raise = .unsupportedInstruction 0x1000#32 [0x90#8] :=
  ⟨exists_fault (by decide), exists_fault (by decide)⟩

/-- A fetch, a read and a write fault. -/
theorem test_witness_MemoryFaultCanBeRetried :
    (∃ f, step (small.setEip 0x2000#32) = .fault f ∧ f.raise = .memoryFault 0x2000#32 .byte .fetch) ∧
    (∃ f, step (withCode [0xC3#8] (small.setReg .esp 0x1FFD#32)) = .fault f ∧
      f.raise = .memoryFault 0x1FFD#32 .dword .read) ∧
    ∃ f, step (withCode [0x6A#8, 0x01#8] cannotPushState) = .fault f ∧
      f.raise = .memoryFault 0x1FFD#32 .dword .write :=
  ⟨exists_fault (by decide), exists_fault (by decide), exists_fault (by decide)⟩

theorem test_witness_ContractViolationChangesOnlyEipAndStatus :
    (withCode [0x8D#8, 0x04#8, 0x85#8] start).status = .running ∧
    ∃ f, step (withCode [0x8D#8, 0x04#8, 0x85#8] start) = .fault f ∧
      f.raise = .contractViolation .scaleNotOne := ⟨rfl, exists_fault (by decide)⟩

/-- A step that completes, and one that faults after it wrote esp. -/
theorem test_witness_ImportsAndPoliciesNeverChange :
    (∃ t, step (withCode [0x6A#8, 0x01#8] canPushState) = .next t) ∧
    ∃ f, step (withCode [0x6A#8, 0x01#8] cannotPushState) = .fault f ∧
      f.raise = .memoryFault 0x1FFD#32 .dword .write := ⟨exists_next (by decide), exists_fault (by decide)⟩

/-- The state of T13. -/
def unhandledState : State :=
  withImport 0x70000002#32 .unhandled (withWord 0x2000#32 0x70000002#32
    (withCode [0xFF#8, 0x15#8, 0x00#8, 0x20#8, 0x00#8, 0x00#8] (start.setReg .esp 0x100000#32)))

theorem unhandledState_noHandlers : NoHandlers unhandledState := by
  intro target h
  simp only [unhandledState, withImport, importLookup]
  split <;> simp [bindingEntry]

theorem test_witness_DiagIsAppendOnly :
    (∃ t, step unhandledState = .next t) ∧
    ∃ f, step (withCode [0x90#8] start) = .fault f ∧ f.raise = .unsupportedInstruction 0x1000#32 [0x90#8] :=
  ⟨exists_next (by decide), exists_fault (by decide)⟩

/-- A step that completes, and one that ends in a fault. -/
theorem test_witness_SegmentsLoadBaseAndDiagAreInert :
    (NoHandlers unhandledState ∧ ∃ t, step unhandledState = .next t) ∧
    NoHandlers (withCode [0x6A#8, 0x01#8] cannotPushState) ∧
      ∃ f, step (withCode [0x6A#8, 0x01#8] cannotPushState) = .fault f ∧
        f.raise = .memoryFault 0x1FFD#32 .dword .write :=
  ⟨⟨unhandledState_noHandlers, exists_next (by decide)⟩, fun _ _ => nofun, exists_fault (by decide)⟩

/-- A form that stores and one that does not, neither a control transfer; and call [mem]. -/
theorem test_witness_EveryInstructionsFrame :
    NoHandlers canPushState ∧ (∃ t, exec (.enter 8#16 0#8) canPushState = .next t) ∧
    storeAddress (.enter 8#16 0#8) canPushState = some 0x1FFC#32 ∧
    (∃ t, exec (.subR32Imm32 .eax 1#32) canPushState = .next t) ∧
    storeAddress (.subR32Imm32 .eax 1#32) canPushState = none ∧
    NoHandlers unhandledState ∧ (∃ t, exec (.callM32 (.disp32 0x2000#32)) unhandledState = .next t) ∧
    storeAddress (.callM32 (.disp32 0x2000#32)) unhandledState = none :=
  ⟨fun _ _ => nofun, exists_next (by decide), by decide, exists_next (by decide), by decide,
    unhandledState_noHandlers, exists_next (by decide), by decide⟩

theorem test_witness_StepKeepsCanonicalMemory :
    (withCode [0x6A#8, 0x01#8] canPushState).mem.wf ∧
    (∃ t, step (withCode [0x6A#8, 0x01#8] canPushState) = .next t) ∧
    (withCode [0x6A#8, 0x01#8] cannotPushState).mem.wf ∧
    ∃ f, step (withCode [0x6A#8, 0x01#8] cannotPushState) = .fault f ∧
      f.raise = .memoryFault 0x1FFD#32 .dword .write :=
  ⟨by decide, exists_next (by decide), by decide, exists_fault (by decide)⟩

/-- Two different addresses, the last one in bounds and the first one out. -/
theorem test_witness_ConstructionValues :
    ([(0x1FFF, 7#8), (0x2000, 9#8)] : List Host.Cell).Pairwise (fun c d => c.1 ≠ d.1) ∧
    ((0x1FFF, 7#8) : Host.Cell) ∈ ([(0x1FFF, 7#8), (0x2000, 9#8)] : List Host.Cell) ∧ 0x1FFF < 0x2000 := by decide

/-- The last word in bounds and the first one out, in a small memory and in the whole address space. -/
theorem test_witness_MemReadIsLittleEndian :
    small.mem.inBounds (0x1FFC#32).toNat 4 ∧ ¬ small.mem.inBounds (0x1FFD#32).toNat 4 ∧
    State.reset.mem.inBounds (0xFFFFFFFC#32).toNat 4 ∧ ¬ State.reset.mem.inBounds (0xFFFFFFFD#32).toNat 4 := by decide

theorem test_witness_MemWriteStoresOrFaultsWhole :
    small.mem.inBounds (0x1FFC#32).toNat 4 ∧ ¬ small.mem.inBounds (0x1FFD#32).toNat 4 := by decide

/-- The last byte of the last word of the address space. -/
theorem test_witness_FetchSeesTheWrittenBytes :
    State.reset.mem.size ≤ Config.maxMemSize ∧
    (∃ t, memWrite 0xFFFFFFFC#32 0x12345678#32 State.reset = .done () t) ∧ 3 < 4 :=
  ⟨by decide, ⟨_, rfl⟩, by decide⟩

theorem test_witness_EffectiveAddressPolicies :
    (memParts (.sib ⟨1#2, none, .eax⟩)).ss ≠ 0#2 ∧ (memParts (.base .eax)).ss = 0#2 ∧
    start.policies.eaBase = .add ∧
    (withPolicies ⟨.ignore, .sign, .zero, .ignore⟩ start).policies.eaBase = .ignore ∧
    (withPolicies ⟨.violation, .sign, .zero, .ignore⟩ start).policies.eaBase = .violation ∧
    (memParts (.disp32 0#32)).ss = 0#2 ∧ (memParts (.disp32 0#32)).base = none ∧
    (memParts (.base .eax)).base ≠ none := by decide

/-- The byte ranges of the rejected neighbours, at both ends: `FF F0+r`, `FF D0+r`, `C7 C0+r`, `B8+rd`, memory operands
(89, 8B, 83, 81), `8D` with a register, `83 /5`; and an enter with a level (EnterResult, PushM32Result,
CallM32SlotFaults, MovM32Imm32Result, RegisterMoveResults, LeaResult, AndResult, SubResult). -/
theorem test_witness_rejected_forms :
    (∀ b ∈ [0xF0#8, 0xF7#8], b.toNat / 8 = 0xF0 / 8) ∧ (∀ b ∈ [0xD0#8, 0xD7#8], b.toNat / 8 = 0xD0 / 8) ∧
    (∀ b ∈ [0xC0#8, 0xC7#8], b.toNat / 8 = 0xC0 / 8) ∧ (∀ b ∈ [0xB8#8, 0xBF#8], b.toNat / 8 = 0xB8 / 8) ∧
    (∀ b ∈ [0x00#8, 0xBF#8], b.toNat / 64 ≠ 3) ∧ (∀ b ∈ [0xC0#8, 0xFF#8], b.toNat / 64 = 3) ∧
    (∀ b ∈ [0x28#8, 0xE8#8, 0xEF#8], b.toNat / 8 % 8 = 5) ∧ (0x01#8 : Byte) ≠ 0#8 := by decide

/-- With and without an index. -/
theorem test_witness_ScaleNotOneHalts :
    (memParts (.sib ⟨1#2, none, .eax⟩)).ss ≠ 0#2 ∧ (memParts (.sibNoBase 2#2 (some .eax) 0#32)).ss ≠ 0#2 := by decide

theorem canPush : CanPush canPushState := by unfold CanPush; decide

theorem cannotPush : ¬ CanPush cannotPushState := by unfold CanPush; decide

/-- esp = 2 cannot push either: the address wraps, the bounds check does not (S12). -/
theorem test_witness_push :
    CanPush canPushState ∧ ¬ CanPush cannotPushState ∧ ¬ CanPush (small.setReg .esp 2#32) :=
  ⟨canPush, cannotPush, by unfold CanPush; decide⟩

theorem test_witness_StackLaws :
    CanPush canPushState ∧ ∃ t, pop (small.setReg .esp 0x1FFC#32) = .done 0#32 t := ⟨canPush, _, rfl⟩

theorem test_witness_EnterResult : CanPush canPushState ∧ ¬ CanPush cannotPushState := ⟨canPush, cannotPush⟩

/-- Both policies, with room and without. -/
theorem test_witness_PushImm8Result :
    CanPush canPushState ∧ canPushState.policies.pushImm8Ext = .sign ∧ ¬ CanPush cannotPushState ∧
    CanPush (withPolicies ⟨.add, .zero, .zero, .ignore⟩ canPushState) ∧
    (withPolicies ⟨.add, .zero, .zero, .ignore⟩ canPushState).policies.pushImm8Ext = .zero :=
  ⟨canPush, rfl, cannotPush, canPush, rfl⟩

theorem test_witness_PushImm32Result : CanPush canPushState ∧ ¬ CanPush cannotPushState := ⟨canPush, cannotPush⟩

theorem test_witness_PushR32Result : CanPush canPushState ∧ ¬ CanPush cannotPushState := ⟨canPush, cannotPush⟩

/-- A violation; a slot out of bounds; one in bounds, with room to push and without. -/
theorem test_witness_PushM32Result :
    effectiveAddress (memParts (.sib ⟨1#2, none, .eax⟩)) start = .error .scaleNotOne ∧
    effectiveAddress (memParts (.disp32 0x1FFD#32)) canPushState = .ok 0x1FFD#32 ∧
    ¬ canPushState.mem.inBounds (0x1FFD#32).toNat 4 ∧
    effectiveAddress (memParts (.disp32 0x1FFC#32)) canPushState = .ok 0x1FFC#32 ∧
    canPushState.mem.inBounds (0x1FFC#32).toNat 4 ∧ CanPush canPushState ∧
    effectiveAddress (memParts (.disp32 0x1FFC#32)) cannotPushState = .ok 0x1FFC#32 ∧
    cannotPushState.mem.inBounds (0x1FFC#32).toNat 4 ∧ ¬ CanPush cannotPushState :=
  ⟨by decide, by decide, by decide, by decide, by decide, canPush, by decide, by decide, cannotPush⟩

theorem test_witness_PopR32Result :
    (small.setReg .esp 0x1FFC#32).mem.inBounds ((small.setReg .esp 0x1FFC#32).reg .esp).toNat 4 ∧
    Reg32.ebx ≠ Reg32.esp ∧
    ¬ (small.setReg .esp 0x1FFD#32).mem.inBounds ((small.setReg .esp 0x1FFD#32).reg .esp).toNat 4 := by decide

theorem test_witness_CallRel32Result : CanPush canPushState ∧ ¬ CanPush cannotPushState := ⟨canPush, cannotPush⟩

theorem test_witness_CallM32SlotFaults :
    effectiveAddress (memParts (.base .eax)) (withPolicies ⟨.violation, .sign, .zero, .ignore⟩ start) =
      .error .baseRegister ∧
    effectiveAddress (memParts (.disp32 0x1FFD#32)) small = .ok 0x1FFD#32 ∧
    ¬ small.mem.inBounds (0x1FFD#32).toNat 4 := by decide

/-- A slot that holds 0, no import, with room to push and without. -/
theorem test_witness_CallM32AbsentResult :
    (effectiveAddress (memParts (.disp32 0x1FFC#32)) canPushState = .ok 0x1FFC#32 ∧
      canPushState.mem.inBounds (0x1FFC#32).toNat 4 ∧ ReadsAs canPushState.mem 0x1FFC#32 0#32 ∧
      importLookup canPushState.imports 0#32 = .absent ∧ CanPush canPushState) ∧
    effectiveAddress (memParts (.disp32 0x1FFC#32)) cannotPushState = .ok 0x1FFC#32 ∧
      cannotPushState.mem.inBounds (0x1FFC#32).toNat 4 ∧ ReadsAs cannotPushState.mem 0x1FFC#32 0#32 ∧
      importLookup cannotPushState.imports 0#32 = .absent ∧ ¬ CanPush cannotPushState :=
  ⟨⟨by decide, by decide, by unfold ReadsAs; decide, by decide, canPush⟩,
    by decide, by decide, by unfold ReadsAs; decide, by decide, cannotPush⟩

theorem test_witness_CallM32AbsentIsCallRel32 :
    effectiveAddress (memParts (.disp32 0x1FFC#32)) canPushState = .ok 0x1FFC#32 ∧
    canPushState.mem.inBounds (0x1FFC#32).toNat 4 ∧ ReadsAs canPushState.mem 0x1FFC#32 0#32 ∧
    importLookup canPushState.imports 0#32 = .absent ∧ canPushState.eip + 0xFFFFF000#32 = 0#32 :=
  ⟨by decide, by decide, by unfold ReadsAs; decide, by decide, by decide⟩

theorem test_witness_CallM32UnhandledResult :
    effectiveAddress (memParts (.disp32 0x2000#32)) unhandledState = .ok 0x2000#32 ∧
    unhandledState.mem.inBounds (0x2000#32).toNat 4 ∧ ReadsAs unhandledState.mem 0x2000#32 0x70000002#32 ∧
    importLookup unhandledState.imports 0x70000002#32 = .unhandled :=
  ⟨by decide, by decide, by unfold ReadsAs; decide, by decide⟩

/-- Handler 1 returns, handler 2 fails; the slot is the last word of memory. -/
theorem test_witness_CallM32HandlerResult :
    ∀ h, h = 1 ∨ h = 2 →
      (effectiveAddress (memParts (.disp32 0x2000#32)) (callState h) = .ok 0x2000#32 ∧
        (callState h).mem.inBounds (0x2000#32).toNat 4 ∧ ReadsAs (callState h).mem 0x2000#32 0x70000001#32 ∧
        importLookup (callState h).imports 0x70000001#32 = .handler h) ∧
      (h = 1 → sampleSem h (callState h).handlerDraw (callState h) = .returned (leaves 7#32 0x5000#32 (callState h))) ∧
      (h = 2 → sampleSem h (callState h).handlerDraw (callState h) = .failed (leaves 0#32 0x1006#32 (callState h))) := by
  rintro h (rfl | rfl) <;>
    exact ⟨⟨by decide, by decide, by unfold ReadsAs; decide, by decide⟩, by decide, by decide⟩

theorem test_witness_RetResult :
    (small.setReg .esp 0x1FFC#32).mem.inBounds ((small.setReg .esp 0x1FFC#32).reg .esp).toNat 4 ∧
    ¬ (small.setReg .esp 0x1FFD#32).mem.inBounds ((small.setReg .esp 0x1FFD#32).reg .esp).toNat 4 := by decide

theorem test_witness_RetAfterCallReturns : ∃ t, exec (.callRel32 0xFF9#32) canPushState = .next t :=
  exists_next (by decide)

theorem test_witness_MovM32Imm32Result :
    effectiveAddress (memParts (.sib ⟨1#2, none, .eax⟩)) start = .error .scaleNotOne ∧
    effectiveAddress (memParts (.disp32 0x1FFC#32)) small = .ok 0x1FFC#32 ∧ small.mem.inBounds (0x1FFC#32).toNat 4 ∧
    effectiveAddress (memParts (.disp32 0x1FFD#32)) small = .ok 0x1FFD#32 ∧
    ¬ small.mem.inBounds (0x1FFD#32).toNat 4 := by decide

theorem test_witness_MovMoffs32EaxResult :
    small.mem.inBounds (0x1FFC#32).toNat 4 ∧ ¬ small.mem.inBounds (0x1FFD#32).toNat 4 := by decide

theorem test_witness_MovEaxMoffs32Result :
    small.mem.inBounds (0x1FFC#32).toNat 4 ∧ ¬ small.mem.inBounds (0xFFFFFFFF#32).toNat 4 := by decide

theorem test_witness_LeaResult :
    effectiveAddress (memParts (.sibNoBase 2#2 (some .eax) 0#32)) start = .error .scaleNotOne ∧
    effectiveAddress (memParts (.disp32 0xFFFFFFFF#32)) small = .ok 0xFFFFFFFF#32 := by decide

theorem test_witness_AndResult :
    start.policies.andImm8Ext = .zero ∧
    (withPolicies ⟨.add, .sign, .sign, .ignore⟩ start).policies.andImm8Ext = .sign := by decide

theorem test_witness_HostGetAndSet : ∀ id ∈ [RegId.seg .cs, RegId.other 9],
    (∀ r, id ≠ .gpr r) ∧ id ≠ .eip ∧ id ≠ .none := by
  intro id h
  simp only [List.mem_cons, List.not_mem_nil, or_false] at h
  rcases h with rfl | rfl <;> exact ⟨fun _ => nofun, nofun, nofun⟩

theorem test_witness_HostAccessFaults :
    ¬ small.mem.inBounds (0x1FFD#32).toNat 4 ∧ ¬ CanPush cannotPushState ∧
    ¬ (small.setReg .esp 0x1FFD#32).mem.inBounds ((small.setReg .esp 0x1FFD#32).reg .esp).toNat 4 :=
  ⟨by decide, cannotPush, by decide⟩

/-- Growing and shrinking, at the last byte below both sizes. -/
theorem test_witness_HostResizeKeepsBytes :
    (small.setMem (small.mem.setByte 0x1FFF 7#8)).mem.wf ∧
    (0x1FFF < (⟨0x3000, by decide⟩ : Fin (Config.maxMemSize + 1)).val ∧
      0x1FFF < (small.setMem (small.mem.setByte 0x1FFF 7#8)).mem.size) ∧
    0xFFF < (⟨0x1000, by decide⟩ : Fin (Config.maxMemSize + 1)).val := by decide

/-- `STOP` is eip = 0; one jump reaches it. -/
theorem test_witness_SuccessfulRunIsAllOk :
    ∃ t, runUntil (fun s => s.eip == 0#32) 1 (withCode [0xE9#8, 0xFB#8, 0xEF#8, 0xFF#8, 0xFF#8] start) = .stopped t :=
  ⟨(withCode [0xE9#8, 0xFB#8, 0xEF#8, 0xFF#8, 0xFF#8] start).setEip 0#32, by decide⟩

end Sys2Proof.Tests
end

section
/-! Eleven bytes settle every verdict of the decoder (00_scope.md R9, 30_encoding.md R122): how many bytes each part of
the decoder needs, from the fields of an instruction up to the whole of it. -/

namespace Sys2Proof

/-! ### How many bytes each part of the decoder needs -/

/-- One byte is enough for an 8-bit field. -/
theorem exists_take8_eq_some {bs : List Byte} (h : 1 ≤ bs.length) :
    ∃ v r, take8 bs = some (v, r) ∧ bs.length = 1 + r.length := by
  match bs, h with
  | b :: r, _ => exact ⟨b, r, rfl, by simp [Nat.add_comm]⟩

/-- Four bytes are enough for a 32-bit field. -/
theorem exists_take32_eq_some {bs : List Byte} (h : 4 ≤ bs.length) :
    ∃ v r, take32 bs = some (v, r) ∧ bs.length = 4 + r.length := by
  match bs, h with
  | a :: b :: c :: d :: r, _ => exact ⟨leWord a b c d, r, rfl, by simp only [List.length_cons]; omega⟩

/-- Five bytes are enough for the SIB byte and the displacement of every memory operand, and it takes `L(m)` of them
(R114 to R116, R122). -/
theorem exists_decodeMem_eq_some (md : BitVec 2) (rm : BitVec 3) {bs : List Byte} (h : 5 ≤ bs.length) :
    ∃ o r, decodeMem md rm bs = some (o, r) ∧ bs.length = o.tail + r.length := by
  obtain ⟨sb, bs', rfl⟩ : ∃ sb bs', bs = sb :: bs' := List.exists_cons_of_length_pos (by omega)
  have hbs' : 4 ≤ bs'.length := Nat.le_of_succ_le_succ h
  unfold decodeMem
  by_cases hsib : rm = 4#3
  · by_cases h0 : md = 0#2
    · by_cases hbase : rmField sb = 5#3
      · obtain ⟨d, r, hd, hr⟩ := exists_take32_eq_some hbs'
        exact ⟨.sibNoBase (sibOf sb).ss (sibOf sb).index d, r, by simp [hsib, h0, hbase, hd],
          by simp only [List.length_cons, MemOperand.tail]; omega⟩
      · exact ⟨.sib (sibOf sb), bs', by simp [hsib, h0, hbase],
          by simp only [List.length_cons, MemOperand.tail]; omega⟩
    · by_cases h1 : md = 1#2
      · obtain ⟨d, r, hd, hr⟩ := exists_take8_eq_some (bs := bs') (by omega)
        exact ⟨.sibDisp8 (sibOf sb) d, r, by simp [hsib, h1, hd],
          by simp only [List.length_cons, MemOperand.tail]; omega⟩
      · obtain ⟨d, r, hd, hr⟩ := exists_take32_eq_some hbs'
        exact ⟨.sibDisp32 (sibOf sb) d, r, by simp [hsib, h0, h1, hd],
          by simp only [List.length_cons, MemOperand.tail]; omega⟩
  · by_cases h0 : md = 0#2
    · by_cases hdisp : rm = 5#3
      · obtain ⟨d, r, hd, hr⟩ := exists_take32_eq_some (bs := sb :: bs') (by omega)
        exact ⟨.disp32 d, r, by simp [h0, hdisp, hd], hr⟩
      · exact ⟨.base (Reg32.ofBits rm), sb :: bs', by simp [hsib, h0, hdisp], (Nat.zero_add _).symm⟩
    · by_cases h1 : md = 1#2
      · obtain ⟨d, r, hd, hr⟩ := exists_take8_eq_some (bs := sb :: bs') (by omega)
        exact ⟨.baseDisp8 (Reg32.ofBits rm) d, r, by simp [hsib, h1, hd], hr⟩
      · obtain ⟨d, r, hd, hr⟩ := exists_take32_eq_some (bs := sb :: bs') (by omega)
        exact ⟨.baseDisp32 (Reg32.ofBits rm) d, r, by simp [hsib, h0, h1, hd], hr⟩

/-- Four bytes after the opcode byte settle a form with one 32-bit field. -/
theorem decodeImm32_ne_short (form : Word → Instr) {r : List Byte} (h : 4 ≤ r.length) :
    decodeImm32 form r ≠ .short := by
  obtain ⟨v, r2, hv, -⟩ := exists_take32_eq_some h
  simp [decodeImm32, hv]

/-- Nine bytes after the ModRM byte settle every selected form: at most five of its memory operand, and four of the
immediate of `mov [mem], imm32`. -/
theorem decodeForm_ne_short (f : ModRMForm) (m : Byte) (bs : List Byte) {r : List Byte} (h : 9 ≤ r.length) :
    decodeForm f m bs r ≠ .short := by
  obtain ⟨v, r1, hv, -⟩ := exists_take8_eq_some (bs := r) (by omega)
  obtain ⟨w, r4, hw, -⟩ := exists_take32_eq_some (bs := r) (by omega)
  obtain ⟨o, r2, ho, hlen⟩ := exists_decodeMem_eq_some (modField m) (rmField m) (bs := r) (by omega)
  cases f with
  | movRm32R32 => simp [decodeForm]
  | movR32Rm32 => simp [decodeForm]
  | andR32Imm8 => simp [decodeForm, hv]
  | subR32Imm32 => simp [decodeForm, hw]
  | leaR32M => simp [decodeForm, ho]
  | pushM32 => simp [decodeForm, ho]
  | callM32 => by_cases hi : o.index = none <;> simp [decodeForm, ho, hi]
  | movM32Imm32 =>
    have htail := Laws.tail_le o
    obtain ⟨imm, r3, himm, -⟩ := exists_take32_eq_some (bs := r2) (by omega)
    simp [decodeForm, ho, himm]

/-- Ten bytes after the first settle every verdict. -/
theorem decode_cons_ne_short (pol : EnterLevelPolicy) (b0 : Byte) {r : List Byte} (h : 10 ≤ r.length) :
    decode pol (b0 :: r) ≠ .short := by
  cases hrow : firstByte b0 with
  | legacyPrefix => simp [decode, hrow]
  | pushReg n => simp [decode, hrow]
  | popReg n => simp [decode, hrow]
  | ret => simp [decode, hrow]
  | other => simp [decode, hrow]
  | pushImm8 =>
    obtain ⟨v, r2, hv, -⟩ := exists_take8_eq_some (bs := r) (by omega)
    simp [decode, hrow, hv]
  | pushImm32 => simpa [decode, hrow] using decodeImm32_ne_short .pushImm32 (by omega)
  | callRel32 => simpa [decode, hrow] using decodeImm32_ne_short .callRel32 (by omega)
  | jmpRel32 => simpa [decode, hrow] using decodeImm32_ne_short .jmpRel32 (by omega)
  | movEaxMoffs => simpa [decode, hrow] using decodeImm32_ne_short .movEaxMoffs32 (by omega)
  | movMoffsEax => simpa [decode, hrow] using decodeImm32_ne_short .movMoffs32Eax (by omega)
  | enter =>
    match r, h with
    | b1 :: b2 :: b3 :: r2, _ =>
      by_cases hlevel : pol = .unsupported ∧ b3 ≠ 0#8 <;> simp [decode, hrow, hlevel]
  | group g =>
    match r, h with
    | m :: r2, h =>
      cases hsel : select g (modField m) (regField m) with
      | none => simp [decode, hrow, hsel]
      | some f =>
        have hr2 : 9 ≤ r2.length := by simpa using h
        simpa [decode, hrow, hsel] using decodeForm_ne_short f m (b0 :: m :: r2) hr2

/-! ### The statement -/

/-- Settles O3: the first byte, and the ten after it that no form reads past. -/
theorem elevenBytesSettleEveryVerdict : Obligations.ElevenBytesSettleEveryVerdict := by
  unfold Obligations.ElevenBytesSettleEveryVerdict
  intro pol bs h
  match bs, h with
  | b0 :: r, h => exact decode_cons_ne_short pol b0 (by simpa using h)

end Sys2Proof
end

section
/-! What every step keeps. A step changes the machine only by the few writes of `KeptByWrites`, so whatever those keep
holds of the machine every step leaves, next state or fault. The canonical form of memory (00_scope.md R8,
20_memory.md R70, R77) is one case. -/

namespace Sys2Proof.Machine

/-! ### What holds of the machine an operation leaves -/

/-- `P` holds of the machine a primitive or a rule leaves, whether it completes or raises. -/
def Res.Leaves {α : Type} (P : State → Prop) : Res α → Prop
  | .done _ s => P s
  | .raised _ s => P s

/-- `P` holds of the machine an outcome leaves: the next state, or the one a fault carries. -/
def OutcomeLeaves (P : State → Prop) : Host.Outcome State Fault Refusal → Prop
  | .next t => P t
  | .fault f => P f.left
  | .refused _ => True

/-- A sequence leaves `P` when its first part does and its second part keeps it. -/
theorem Res.Leaves.andThen {α β : Type} {P : State → Prop} {x : Res α} {f : α → State → Res β}
    (hx : x.Leaves P) (hf : ∀ v t, P t → (f v t).Leaves P) : (x.andThen f).Leaves P := by
  cases x with
  | done v t => exact hf v t hx
  | raised r t => exact hx

/-- The resolver leaves the state as it is (R87), and so what holds of it. -/
theorem leaves_resolve {P : State → Prop} {s : State} (p : MemParts) (h : P s) : (resolve p s).Leaves P := by
  rcases resolve_cases p s with ⟨a, -, e⟩ | ⟨k, -, e⟩ <;> rw [e] <;> exact h

/-- `MemRead` leaves the state as it is (R73). -/
theorem leaves_memRead {P : State → Prop} {s : State} (a : Word) (h : P s) : (memRead a s).Leaves P := by
  rcases memRead_cases a s with ⟨-, e⟩ | ⟨-, e⟩ <;> rw [e] <;> exact h

/-- `P` is kept by every write of the machine's fields that a step makes: of a register, of eip, of `status` when an
outcome halts, of four bytes in bounds, of an event, and of what a handler leaves. -/
structure KeptByWrites (P : State → Prop) : Prop where
  setReg : ∀ s r v, P s → P (s.setReg r v)
  setEip : ∀ s v, P s → P (s.setEip v)
  halt : ∀ s r, P s → P (s.setStatus (.halted r))
  write32 : ∀ s a v, s.mem.inBounds a 4 → P s → P (s.setMem (s.mem.write32 a v))
  emit : ∀ s e, P s → P (s.emit e)
  afterHandler : ∀ s l, P s → P (s.afterHandler l)

namespace KeptByWrites

variable {P : State → Prop} {s : State}

/-! ### Outcomes -/

/-- Raising writes at most `status`. -/
protected theorem raiseLeft (hP : KeptByWrites P) (r : Raise) (h : P s) : P (raiseLeft r s) := by
  cases r with
  | unsupportedInstruction start bytes => exact h
  | memoryFault a w k => exact h
  | contractViolation k => exact hP.halt s _ h
  | hostFailure id => exact hP.halt s _ h

protected theorem takeRaise (hP : KeptByWrites P) (r : Raise) (h : P s) : OutcomeLeaves P (takeRaise r s) := by
  simpa [takeRaise, OutcomeLeaves] using hP.raiseLeft r h

protected theorem finish (hP : KeptByWrites P) {x : Res Unit} (hx : x.Leaves P) : OutcomeLeaves P x.finish := by
  cases x with
  | done v t => exact hx
  | raised r t => exact hP.takeRaise r hx

/-! ### The shared operations -/

protected theorem memWrite (hP : KeptByWrites P) (a v : Word) (h : P s) : (memWrite a v s).Leaves P := by
  rcases memWrite_cases a v s with ⟨hb, e⟩ | ⟨-, e⟩ <;> rw [e]
  · exact hP.write32 s _ v hb h
  · exact h

/-- A push is a write with esp lowered first (R190). -/
protected theorem push (hP : KeptByWrites P) (v : Word) (h : P s) : (push v s).Leaves P :=
  hP.memWrite _ v (hP.setReg s .esp _ h)

protected theorem pop (hP : KeptByWrites P) (h : P s) : (pop s).Leaves P :=
  (leaves_memRead _ h).andThen fun _ t ht => hP.setReg t .esp _ ht

protected theorem callTo (hP : KeptByWrites P) (target : Word) (h : P s) : (callTo target s).Leaves P :=
  (hP.push s.eip h).andThen fun _ t ht => hP.setEip t target ht

protected theorem invoke (hP : KeptByWrites P) (sem : HandlerSem) (id : HandlerId) (h : P s) :
    (invoke sem id s).Leaves P := by
  rcases invoke_cases sem id s with ⟨l, -, e⟩ | ⟨l, -, e⟩ <;> rw [e] <;> exact hP.afterHandler s l h

protected theorem callThrough (hP : KeptByWrites P) (sem : HandlerSem) (slot target : Word) (h : P s) :
    (callThrough sem slot target s).Leaves P := by
  rcases callThrough_cases sem slot target s with ⟨-, e⟩ | ⟨id, -, e⟩ | ⟨-, e⟩ <;> rw [e]
  · exact hP.callTo target h
  · exact hP.invoke sem id h
  · exact hP.emit s _ h

/-! ### Every instruction and every step -/

/-- `call [mem]` keeps `P` whatever its handlers do. -/
protected theorem callM32With (hP : KeptByWrites P) (sem : HandlerSem) (m : MemOperand) (h : P s) :
    OutcomeLeaves P (callM32With sem m s) :=
  hP.finish <| (leaves_resolve _ h).andThen fun slot _ h1 => (leaves_memRead slot h1).andThen fun target _ h2 =>
    hP.callThrough sem slot target h2

/-- Every instruction keeps `P`: each is a sequence of the operations above. -/
protected theorem exec (hP : KeptByWrites P) (i : Instr) (h : P s) : OutcomeLeaves P (exec i s) := by
  cases i with
  | enter frame level =>
    exact hP.finish <| (hP.push _ h).andThen fun _ _ h1 => hP.setReg _ .esp _ (hP.setReg _ .ebp _ h1)
  | callRel32 rel => exact hP.finish (hP.callTo _ h)
  | callM32 m => exact hP.callM32With Config.handlerSem m h
  | ret => exact hP.finish <| (hP.pop h).andThen fun v _ h1 => hP.setEip _ v h1
  | jmpRel32 rel => exact hP.setEip s _ h
  | pushImm8 imm => exact hP.finish (hP.push _ h)
  | pushImm32 imm => exact hP.finish (hP.push imm h)
  | pushR32 r => exact hP.finish (hP.push _ h)
  | pushM32 m =>
    exact hP.finish <| (leaves_resolve _ h).andThen fun a _ h1 => (leaves_memRead a h1).andThen fun v _ h2 =>
      hP.push v h2
  | popR32 r => exact hP.finish <| (hP.pop h).andThen fun v _ h1 => hP.setReg _ r v h1
  | movM32Imm32 m imm => exact hP.finish <| (leaves_resolve _ h).andThen fun a _ h1 => hP.memWrite a imm h1
  | movMoffs32Eax moffs => exact hP.finish <| (leaves_resolve _ h).andThen fun a _ h1 => hP.memWrite a _ h1
  | movEaxMoffs32 moffs =>
    exact hP.finish <| (leaves_resolve _ h).andThen fun a _ h1 => (leaves_memRead a h1).andThen fun v _ h2 =>
      hP.setReg _ .eax v h2
  | movRm32R32 dst src => exact hP.setReg s dst _ h
  | movR32Rm32 dst src => exact hP.setReg s dst _ h
  | andR32Imm8 r imm => exact hP.setReg s r _ h
  | subR32Imm32 r imm => exact hP.setReg s r _ h
  | leaR32M dst m => exact hP.finish <| (leaves_resolve _ h).andThen fun a _ h1 => hP.setReg _ dst a h1

/-- Every step keeps `P`, in the next state and in the machine a fault leaves. -/
protected theorem step (hP : KeptByWrites P) (h : P s) : OutcomeLeaves P (step s) := by
  rcases step_cases s with ⟨r, -, e⟩ | ⟨r, -, -, e⟩ | ⟨d, -, -, e⟩ <;> rw [e]
  · exact hP.takeRaise r.raise h
  · exact hP.takeRaise r h
  · exact hP.exec d.instr (hP.setEip s d.nextIp h)

/-- What the writes keep, in the form of the statements about a step. -/
theorem next_and_fault (hP : KeptByWrites P) (h : P s) :
    (∀ t, step s = .next t → P t) ∧ ∀ f, step s = .fault f → P f.left := by
  have hstep := hP.step h
  refine ⟨fun t ht => ?_, fun f hf => ?_⟩
  · rwa [ht] at hstep
  · rwa [hf] at hstep

end KeptByWrites

/-! ### The canonical form of memory -/

/-- Only the two writes of memory touch its canonical form, and both keep it. -/
theorem keptByWrites_mem_wf : KeptByWrites fun s => s.mem.wf where
  setReg _ _ _ h := h
  setEip _ _ h := h
  halt _ _ h := h
  write32 _ _ v hb h := Memory.wf_write32 h hb v
  emit _ _ h := h
  afterHandler s l _ := s.afterHandler_mem_wf l

/-- Settles O24: the canonical form is kept by every write a step makes. -/
theorem stepKeepsCanonicalMemory : Obligations.StepKeepsCanonicalMemory := by
  unfold Obligations.StepKeepsCanonicalMemory
  exact fun s h => keptByWrites_mem_wf.next_and_fault h

end Sys2Proof.Machine
end

section
/-! What completing means for each shared operation, and what a step is once its first stage is known: the inversion
lemmas that follow from `Laws/Ops`. -/

namespace Sys2Proof.Machine

/-! ### When an operation completes -/

/-- The resolver completes with the effective address, and changes nothing (R84, R87). -/
theorem resolve_eq_done {p : MemParts} {s t : State} {a : Word} :
    resolve p s = .done a t ↔ effectiveAddress p s = .ok a ∧ t = s := by
  rcases resolve_cases p s with ⟨a', ha, e⟩ | ⟨k, ha, e⟩ <;> rw [e, ha]
  · simp [eq_comm]
  · simp

/-- `MemRead` completes with the four bytes at an address in bounds, and changes nothing (R73). -/
theorem memRead_eq_done {a v : Word} {s t : State} :
    memRead a s = .done v t ↔ s.mem.inBounds a.toNat 4 ∧ v = s.mem.read32 a.toNat ∧ t = s := by
  rcases memRead_cases a s with ⟨hb, e⟩ | ⟨hb, e⟩ <;> rw [e]
  · simp [hb, eq_comm]
  · simp [hb]

/-- `MemWrite` completes in bounds, with the four bytes stored (R74). -/
theorem memWrite_eq_done {a v : Word} {u : Unit} {s t : State} :
    memWrite a v s = .done u t ↔ s.mem.inBounds a.toNat 4 ∧ t = s.setMem (s.mem.write32 a.toNat v) := by
  rcases memWrite_cases a v s with ⟨hb, e⟩ | ⟨hb, e⟩ <;> rw [e]
  · simp [hb, eq_comm]
  · simp [hb]

/-- `Push` completes when there is room below esp (R190). -/
theorem push_eq_done {v : Word} {u : Unit} {s t : State} :
    push v s = .done u t ↔ s.mem.inBounds (s.reg .esp - 4#32).toNat 4 ∧ t = pushed v s := by
  rcases push_cases v s with ⟨hb, e⟩ | ⟨hb, e⟩ <;> rw [e]
  · exact ⟨fun h => ⟨hb, (Res.done.inj h).2.symm⟩, fun h => h.2 ▸ rfl⟩
  · exact ⟨nofun, fun h => absurd h.1 hb⟩

/-- `Pop` completes when the word at esp is in bounds, with esp raised (R191). -/
theorem pop_eq_done {v : Word} {s t : State} :
    pop s = .done v t ↔ s.mem.inBounds (s.reg .esp).toNat 4 ∧ v = s.mem.read32 (s.reg .esp).toNat ∧
      t = s.setReg .esp (s.reg .esp + 4#32) := by
  rcases pop_cases s with ⟨hb, e⟩ | ⟨hb, e⟩ <;> rw [e]
  · simp [hb, eq_comm]
  · simp [hb]

/-- A call completes when there is room below esp, with eip pushed and then replaced (R221, R224). -/
theorem callTo_eq_done {target : Word} {u : Unit} {s t : State} :
    callTo target s = .done u t ↔
      s.mem.inBounds (s.reg .esp - 4#32).toNat 4 ∧ t = (pushed s.eip s).setEip target := by
  rcases callTo_cases target s with ⟨hb, e⟩ | ⟨hb, e⟩ <;> rw [e]
  · exact ⟨fun h => ⟨hb, (Res.done.inj h).2.symm⟩, fun h => h.2 ▸ rfl⟩
  · exact ⟨nofun, fun h => absurd h.1 hb⟩

/-! ### The import multiplexer, entry by entry -/

/-- Without an entry the slot's value is called (R224). -/
theorem callThrough_of_absent {sem : HandlerSem} {slot target : Word} {s : State}
    (h : importLookup s.imports target = .absent) : callThrough sem slot target s = callTo target s := by
  unfold callThrough; rw [h]

/-- An unhandled import is reported and nothing else (R227). -/
theorem callThrough_of_unhandled {sem : HandlerSem} {slot target : Word} {s : State}
    (h : importLookup s.imports target = .unhandled) :
    callThrough sem slot target s = .done () (s.emit (.unimplementedImport slot target)) := by
  unfold callThrough; rw [h]

/-! ### The step, case by case -/

/-- A halted machine raises its outcome again (R162). -/
theorem step_of_halted {s : State} {r : HaltReason} (h : s.status = .halted r) : step s = takeRaise r.raise s := by
  unfold step; rw [h]

/-- What stage 1 raises ends the step (R164, R165). -/
theorem step_of_raised {s : State} {r : Raise} (h : s.status = .running) (hf : fetchDecode s = .raised r) :
    step s = takeRaise r s := by
  unfold step; rw [h, hf]

/-- A decoded instruction runs with eip at next_ip (R166, R167). -/
theorem step_of_decoded {s : State} {d : Decoded} (h : s.status = .running) (hf : fetchDecode s = .decoded d) :
    step s = exec d.instr (s.setEip d.nextIp) := by
  unfold step; rw [h, hf]

/-- The decoder's verdict on the window at eip fixes what stage 1 answers (R124, R134). -/
theorem fetchDecode_of_decoded {s : State} {i : Instr} {rest : List Byte}
    (h : decode s.policies.enterLevel (fetchWindow s) = .decoded i rest) :
    fetchDecode s = .decoded (decodedAt s.eip (fetchWindow s) i) := by
  unfold fetchDecode; rw [h]

end Sys2Proof.Machine
end

section
/-! The segment registers, load_base and diag are inert (10_state.md R43, R46, R49): without handlers, replacing the
three before an operation or after it comes to the same, but for the events `call [mem]` appends
(42_control_transfer.md R227). -/

namespace Sys2Proof.Machine

open Sys2Proof.Safety

/-! ### Replacing the three -/

/-- `s` with other segment registers, load_base and diagnostics. -/
def State.withInert (s : State) (g : SegFile) (b : Word) (d : List DiagEvent) : State :=
  { s with seg := g, loadBase := b, diag := d }

/-- A result of a primitive with the three replaced in the machine it leaves. -/
def Res.withInert {α : Type} (x : Res α) (g : SegFile) (b : Word) (d : List DiagEvent) : Res α :=
  match x with
  | .done v s => .done v (s.withInert g b d)
  | .raised r s => .raised r (s.withInert g b d)

/-- An outcome with the three replaced in the machine it leaves. -/
def outcomeWithInert (o : Host.Outcome State Fault Refusal) (g : SegFile) (b : Word) (d : List DiagEvent) :
    Host.Outcome State Fault Refusal :=
  match o with
  | .next t => .next (t.withInert g b d)
  | .fault f => .fault (f.raise.fault (f.left.withInert g b d))
  | .refused r => .refused r

@[simp] theorem State.withInert_self (s : State) : s.withInert s.seg s.loadBase s.diag = s := rfl

@[simp] theorem State.withInert_mem (s : State) (g : SegFile) (b : Word) (d : List DiagEvent) :
    (s.withInert g b d).mem = s.mem := rfl

section
variable {g : SegFile} {b : Word} {d : List DiagEvent}

theorem takeRaise_withInert (r : Raise) (s : State) :
    takeRaise r (s.withInert g b d) = outcomeWithInert (takeRaise r s) g b d := by
  cases r <;> rfl

theorem Res.finish_withInert {x y : Res Unit} (h : y = x.withInert g b d) :
    y.finish = outcomeWithInert x.finish g b d := by
  subst h
  cases x with
  | done v t => rfl
  | raised r t => exact takeRaise_withInert r t

/-- Replacing the three commutes with a sequence when it does with both parts. -/
theorem Res.andThen_withInert {α β : Type} {x y : Res α} {f : α → State → Res β} (hx : y = x.withInert g b d)
    (hf : ∀ v t, f v (t.withInert g b d) = (f v t).withInert g b d) :
    y.andThen f = (x.andThen f).withInert g b d := by
  subst hx
  cases x with
  | done v t => exact hf v t
  | raised r t => rfl

/-! ### The shared operations -/

/-- An effective address reads general registers and a policy (R84, R87). -/
theorem resolve_withInert (p : MemParts) (s : State) :
    resolve p (s.withInert g b d) = (resolve p s).withInert g b d := by
  have hea : effectiveAddress p (s.withInert g b d) = effectiveAddress p s := rfl
  unfold resolve
  rw [hea]
  cases effectiveAddress p s <;> rfl

theorem memRead_withInert (a : Word) (s : State) :
    memRead a (s.withInert g b d) = (memRead a s).withInert g b d := by
  unfold memRead
  rw [State.withInert_mem]
  split <;> rfl

theorem memWrite_withInert (a v : Word) (s : State) :
    memWrite a v (s.withInert g b d) = (memWrite a v s).withInert g b d := by
  unfold memWrite
  rw [State.withInert_mem]
  split <;> rfl

theorem push_withInert (v : Word) (s : State) : push v (s.withInert g b d) = (push v s).withInert g b d :=
  memWrite_withInert (s.reg .esp - 4#32) v (s.setReg .esp (s.reg .esp - 4#32))

theorem pop_withInert (s : State) : pop (s.withInert g b d) = (pop s).withInert g b d :=
  Res.andThen_withInert (memRead_withInert (s.reg .esp) s) fun _ _ => rfl

theorem callTo_withInert (target : Word) (s : State) :
    callTo target (s.withInert g b d) = (callTo target s).withInert g b d :=
  Res.andThen_withInert (push_withInert s.eip s) fun _ _ => rfl

/-- Every form but `call [mem]` neither reads nor writes the three. -/
theorem exec_withInert {i : Instr} (hi : ∀ m, i ≠ .callM32 m) (s : State) :
    exec i (s.withInert g b d) = outcomeWithInert (exec i s) g b d := by
  cases i with
  | enter frame level =>
    exact Res.finish_withInert <| Res.andThen_withInert (push_withInert (s.reg .ebp) s) fun _ _ => rfl
  | callRel32 rel => exact Res.finish_withInert (callTo_withInert _ s)
  | callM32 m => exact absurd rfl (hi m)
  | ret => exact Res.finish_withInert <| Res.andThen_withInert (pop_withInert s) fun _ _ => rfl
  | jmpRel32 rel => rfl
  | pushImm8 imm => exact Res.finish_withInert (push_withInert _ s)
  | pushImm32 imm => exact Res.finish_withInert (push_withInert imm s)
  | pushR32 r => exact Res.finish_withInert (push_withInert (s.reg r) s)
  | pushM32 m =>
    exact Res.finish_withInert <| Res.andThen_withInert (resolve_withInert _ s) fun a t =>
      Res.andThen_withInert (memRead_withInert a t) fun v u => push_withInert v u
  | popR32 r => exact Res.finish_withInert <| Res.andThen_withInert (pop_withInert s) fun _ _ => rfl
  | movM32Imm32 m imm =>
    exact Res.finish_withInert <| Res.andThen_withInert (resolve_withInert _ s) fun a t =>
      memWrite_withInert a imm t
  | movMoffs32Eax moffs =>
    exact Res.finish_withInert <| Res.andThen_withInert (resolve_withInert _ s) fun a t =>
      memWrite_withInert a (t.reg .eax) t
  | movEaxMoffs32 moffs =>
    exact Res.finish_withInert <| Res.andThen_withInert (resolve_withInert _ s) fun a t =>
      Res.andThen_withInert (memRead_withInert a t) fun _ _ => rfl
  | movRm32R32 dst src => rfl
  | movR32Rm32 dst src => rfl
  | andR32Imm8 r imm => rfl
  | subR32Imm32 r imm => rfl
  | leaR32M dst m => exact Res.finish_withInert <| Res.andThen_withInert (resolve_withInert _ s) fun _ _ => rfl

end

/-! ### What an outcome appends -/

/-- From `s`, `run` appends the events `ev` to diag, none when it ends in a fault, and is otherwise independent of the
three: replacing them before the run, or after it with `ev` appended, comes to the same. -/
structure AppendsOnly (run : State → Host.Outcome State Fault Refusal) (s : State) (ev : List DiagEvent) : Prop where
  comm : ∀ g b d, run (s.withInert g b d) = outcomeWithInert (run s) g b (d ++ ev)
  silent : ∀ f, run s = .fault f → ev = []

/-- A run that commutes with replacing the three appends nothing. -/
theorem AppendsOnly.nil {run : State → Host.Outcome State Fault Refusal} {s : State}
    (h : ∀ g b d, run (s.withInert g b d) = outcomeWithInert (run s) g b d) : AppendsOnly run s [] :=
  ⟨fun g b d => by rw [h, List.append_nil], fun _ _ => rfl⟩

/-- A sequence whose first part commutes with replacing the three appends what its second part does. -/
theorem AppendsOnly.andThen {α : Type} {x : State → Res α} {f : α → State → Res Unit} {s : State}
    (hx : ∀ g b d, x (s.withInert g b d) = (x s).withInert g b d)
    (hf : ∀ v t, x s = .done v t → ∃ ev, AppendsOnly (fun t => (f v t).finish) t ev) :
    ∃ ev, AppendsOnly (fun s => ((x s).andThen f).finish) s ev := by
  cases hxs : x s with
  | done v t =>
    obtain ⟨ev, hcomm, hsilent⟩ := hf v t hxs
    exact ⟨ev, fun g b d => by simpa [hx, hxs, Res.withInert] using hcomm g b d,
      fun f hf => hsilent f (by simpa [hxs] using hf)⟩
  | raised r t => exact ⟨[], .nil fun g b d => by simpa [hx, hxs, Res.withInert] using takeRaise_withInert r t⟩

/-- Without handlers the import multiplexer calls, or appends its one event (R224, R227). -/
theorem callThrough_appendsOnly (sem : HandlerSem) (slot target : Word) {s : State} (hn : NoHandlers s) :
    ∃ ev, AppendsOnly (fun s => (callThrough sem slot target s).finish) s ev := by
  rcases callThrough_cases sem slot target s with ⟨hl, e⟩ | ⟨h, hl, -⟩ | ⟨hl, e⟩
  · refine ⟨[], .nil fun g b d => ?_⟩
    rw [callThrough_of_absent hl, callThrough_of_absent (s := s.withInert g b d) hl]
    exact Res.finish_withInert (callTo_withInert target s)
  · exact absurd hl (hn target h)
  · refine ⟨[.unimplementedImport slot target], fun g b d => ?_, fun f hf => by simp [e] at hf⟩
    rw [callThrough_of_unhandled hl, callThrough_of_unhandled (s := s.withInert g b d) hl]
    rfl

/-- Without handlers `call [mem]` appends an event or none (R227). -/
theorem callM32With_appendsOnly (sem : HandlerSem) (m : MemOperand) {s : State} (hn : NoHandlers s) :
    ∃ ev, AppendsOnly (callM32With sem m) s ev :=
  AppendsOnly.andThen (fun _ _ _ => resolve_withInert _ s) fun slot t ht => by
    obtain ⟨-, rfl⟩ := resolve_eq_done.1 ht
    refine AppendsOnly.andThen (fun _ _ _ => memRead_withInert slot t) fun target u hu => ?_
    obtain ⟨-, -, rfl⟩ := memRead_eq_done.1 hu
    exact callThrough_appendsOnly sem slot target hn

/-- Without handlers every instruction appends an event or none. -/
theorem exec_appendsOnly (i : Instr) {s : State} (hn : NoHandlers s) : ∃ ev, AppendsOnly (exec i) s ev := by
  by_cases hi : ∃ m, i = .callM32 m
  · obtain ⟨m, rfl⟩ := hi
    exact callM32With_appendsOnly Config.handlerSem m hn
  · exact ⟨[], .nil fun _ _ _ => exec_withInert (not_exists.1 hi) s⟩

/-- Without handlers every step appends an event or none: its first stage reads none of the three. -/
theorem step_appendsOnly {s : State} (hn : NoHandlers s) : ∃ ev, AppendsOnly step s ev := by
  rcases step_cases s with ⟨r, hs, e⟩ | ⟨r, hs, hf, e⟩ | ⟨d, hs, hf, e⟩
  · refine ⟨[], .nil fun g b d => ?_⟩
    rw [e, ← takeRaise_withInert]
    exact step_of_halted hs
  · refine ⟨[], .nil fun g b d => ?_⟩
    rw [e, ← takeRaise_withInert]
    exact step_of_raised hs hf
  · obtain ⟨ev, hcomm, hsilent⟩ := exec_appendsOnly d.instr (s := s.setEip d.nextIp) hn
    refine ⟨ev, fun g b d' => ?_, e ▸ hsilent⟩
    rw [e, ← hcomm g b d']
    exact step_of_decoded hs hf

/-! ### The statement -/

/-- Settles O22: what a step appends and leaves alone, read off at the machine's own values of the three. -/
theorem segmentsLoadBaseAndDiagAreInert : Obligations.SegmentsLoadBaseAndDiagAreInert := by
  unfold Obligations.SegmentsLoadBaseAndDiagAreInert
  intro s hn
  obtain ⟨ev, hcomm, hsilent⟩ := step_appendsOnly hn
  have hown := hcomm s.seg s.loadBase s.diag
  rw [State.withInert_self] at hown
  refine ⟨fun t ht => ?_, fun f hf => ?_⟩
  · have htown : t = t.withInert s.seg s.loadBase (s.diag ++ ev) := by
      simpa [ht, outcomeWithInert] using hown
    exact ⟨(congrArg State.seg htown :), (congrArg State.loadBase htown :), ev, (congrArg State.diag htown :),
      fun g b d => (hcomm g b d).trans (congrArg (outcomeWithInert · g b (d ++ ev)) ht)⟩
  · obtain rfl := hsilent f hf
    simp only [List.append_nil] at hcomm hown
    have hleft : f.left = f.left.withInert s.seg s.loadBase s.diag := by
      have h : f = f.raise.fault (f.left.withInert s.seg s.loadBase s.diag) := by
        simpa [hf, outcomeWithInert] using hown
      simpa using congrArg Fault.left h
    exact ⟨(congrArg State.seg hleft :), (congrArg State.loadBase hleft :), (congrArg State.diag hleft :),
      fun g b d => (hcomm g b d).trans (congrArg (outcomeWithInert · g b d) hf)⟩

end Sys2Proof.Machine
end

section
/-! The frame of every instruction (10_state.md R32, R40; 20_memory.md R77, R81): the machine a completed instruction
leaves is reached from the one before by writes of the registers R32 lists for it and of the four bytes at its store
address, and at the end by a write of eip or an event, for the forms that make one. -/

namespace Sys2Proof.Machine

open Sys2Proof.Safety

/-! ### Frames -/

/-- `t` is `s` but for the general registers `rs` and the four bytes at `store`, if there are any. -/
structure Frame (rs : List Reg32) (store : Option Word) (s t : State) : Prop where
  regs : SameRegsBut s t rs
  bytes : ∀ x, (∀ a, store = some a → x < a.toNat ∨ a.toNat + 4 ≤ x) → t.mem.byte x = s.mem.byte x
  size : t.mem.size = s.mem.size
  eip : t.eip = s.eip
  rest : SameRest s t

namespace Frame

variable {rs : List Reg32} {store : Option Word} {s t : State}

theorem refl (s : State) : Frame rs store s s :=
  ⟨fun _ _ => rfl, fun _ _ => rfl, rfl, rfl, rfl, rfl, rfl, rfl, rfl, rfl, rfl⟩

/-- A write of a register the frame lists. -/
theorem setReg (h : Frame rs store s t) {r : Reg32} (hr : r ∈ rs) (v : Word) : Frame rs store s (t.setReg r v) where
  regs q hq := (t.setReg_reg_of_ne v (ne_of_mem_of_not_mem hr hq).symm).trans (h.regs q hq)
  bytes := h.bytes
  size := h.size
  eip := h.eip
  rest := h.rest

/-- A write of the four bytes the frame lists. -/
theorem write32 {a : Word} (h : Frame rs (some a) s t) (v : Word) :
    Frame rs (some a) s (t.setMem (t.mem.write32 a.toNat v)) where
  regs := h.regs
  bytes x hx := (t.mem.byte_write32_outside v (hx a rfl)).trans (h.bytes x hx)
  size := h.size
  eip := h.eip
  rest := h.rest

/-- A push writes esp and the word below it (R190). -/
theorem pushed (hesp : .esp ∈ rs) (v : Word) (s : State) : Frame rs (some (s.reg .esp - 4#32)) s (pushed v s) :=
  ((refl s).setReg hesp _).write32 v

end Frame

/-! ### The machine an instruction leaves -/

/-- The forms that may write eip after stage 2 (R40). -/
def SetsEip (i : Instr) : Prop :=
  (∃ rel, i = .callRel32 rel) ∨ (∃ m, i = .callM32 m) ∨ i = .ret ∨ ∃ rel, i = .jmpRel32 rel

/-- `t` is `s` within the frame of `i`, and then a write of eip if `i` may make one, or an event of `call [mem]`. -/
def FramedBy (i : Instr) (s t : State) : Prop :=
  ∃ u, Frame (writtenRegs i) (storeAddress i s) s u ∧
    (t = u ∨ (SetsEip i ∧ ∃ v, t = u.setEip v) ∨ ∃ m e, i = .callM32 m ∧ t = u.emit e)

/-- Without handlers `call [mem]` calls, which stores, or reports the import, which does not (R224, R227). -/
theorem callM32With_framedBy (sem : HandlerSem) {m : MemOperand} {s t : State} (hn : NoHandlers s)
    (h : callM32With sem m s = .next t) : FramedBy (.callM32 m) s t := by
  simp only [callM32With, Res.finish_eq_next, Res.andThen_eq_done] at h
  obtain ⟨slot, _, hslot, target, s1, htarget, h⟩ := h
  obtain ⟨hea, rfl⟩ := resolve_eq_done.1 hslot
  obtain ⟨-, rfl, rfl⟩ := memRead_eq_done.1 htarget
  rcases callThrough_cases sem slot (s1.mem.read32 slot.toNat) s1 with ⟨hl, e⟩ | ⟨id, hl, -⟩ | ⟨hl, e⟩
  · obtain ⟨-, rfl⟩ := callTo_eq_done.1 (e ▸ h)
    have hstore : storeAddress (.callM32 m) s1 = some (s1.reg .esp - 4#32) := by simp [storeAddress, hea, hl]
    exact ⟨pushed s1.eip s1, hstore ▸ Frame.pushed (by simp [writtenRegs]) s1.eip s1,
      .inr (.inl ⟨.inr (.inl ⟨m, rfl⟩), _, rfl⟩)⟩
  · exact absurd hl (hn _ id)
  · obtain rfl := (Res.done.inj (e.symm.trans h)).2
    exact ⟨s1, Frame.refl s1, .inr (.inr ⟨m, _, rfl, rfl⟩)⟩

/-- A form whose one write is that of a register. -/
theorem framedBy_of_setReg {i : Instr} {s t : State} {r : Reg32} {v : Word} (hr : r ∈ writtenRegs i)
    (h : (Res.done () (s.setReg r v)).finish = .next t) : FramedBy i s t := by
  obtain rfl := Host.Outcome.next.inj h
  exact ⟨_, (Frame.refl s).setReg hr v, .inl rfl⟩

/-- A form that ends with a push. -/
theorem framedBy_of_push {i : Instr} {s t : State} {v : Word} (hesp : .esp ∈ writtenRegs i)
    (hstore : storeAddress i s = some (s.reg .esp - 4#32)) (h : push v s = .done () t) : FramedBy i s t := by
  obtain ⟨-, rfl⟩ := push_eq_done.1 h
  exact ⟨_, hstore ▸ Frame.pushed hesp v s, .inl rfl⟩

/-- Without handlers every instruction that completes keeps within its frame. -/
theorem exec_framedBy {i : Instr} {s t : State} (hn : NoHandlers s) (h : exec i s = .next t) : FramedBy i s t := by
  have straight {t : State} (hf : Frame (writtenRegs i) (storeAddress i s) s t) : FramedBy i s t := ⟨t, hf, .inl rfl⟩
  cases i with
  | enter frame level =>
    simp only [exec, execEnter, Res.finish_eq_next, Res.andThen_eq_done, push_eq_done] at h
    obtain ⟨-, _, ⟨-, rfl⟩, h⟩ := h
    obtain rfl := (Res.done.inj h).2
    exact straight (((Frame.pushed (by simp [writtenRegs]) _ s).setReg (by simp [writtenRegs]) _).setReg
      (by simp [writtenRegs]) _)
  | callRel32 rel =>
    obtain ⟨-, rfl⟩ := callTo_eq_done.1 (Res.finish_eq_next.1 h)
    exact ⟨_, Frame.pushed (by simp [writtenRegs]) s.eip s, .inr (.inl ⟨.inl ⟨rel, rfl⟩, _, rfl⟩)⟩
  | callM32 m => exact callM32With_framedBy Config.handlerSem hn h
  | ret =>
    simp only [exec, execRet, Res.finish_eq_next, Res.andThen_eq_done, pop_eq_done] at h
    obtain ⟨v, _, ⟨-, -, rfl⟩, h⟩ := h
    obtain rfl := (Res.done.inj h).2
    exact ⟨_, (Frame.refl s).setReg (by simp [writtenRegs]) _, .inr (.inl ⟨.inr (.inr (.inl rfl)), v, rfl⟩)⟩
  | jmpRel32 rel =>
    obtain rfl := Host.Outcome.next.inj h
    exact ⟨s, Frame.refl s, .inr (.inl ⟨.inr (.inr (.inr ⟨rel, rfl⟩)), _, rfl⟩)⟩
  | pushImm8 imm => exact framedBy_of_push (by simp [writtenRegs]) rfl (Res.finish_eq_next.1 h)
  | pushImm32 imm => exact framedBy_of_push (by simp [writtenRegs]) rfl (Res.finish_eq_next.1 h)
  | pushR32 r => exact framedBy_of_push (by simp [writtenRegs]) rfl (Res.finish_eq_next.1 h)
  | pushM32 m =>
    simp only [exec, execPushM32, Res.finish_eq_next, Res.andThen_eq_done, resolve_eq_done, memRead_eq_done] at h
    obtain ⟨_, _, ⟨-, rfl⟩, v, _, ⟨-, -, rfl⟩, h⟩ := h
    exact framedBy_of_push (by simp [writtenRegs]) rfl h
  | popR32 r =>
    simp only [exec, execPopR32, Res.finish_eq_next, Res.andThen_eq_done, pop_eq_done] at h
    obtain ⟨v, _, ⟨-, -, rfl⟩, h⟩ := h
    obtain rfl := (Res.done.inj h).2
    exact straight (((Frame.refl s).setReg (by simp [writtenRegs]) _).setReg (by simp [writtenRegs]) v)
  | movM32Imm32 m imm =>
    simp only [exec, execMovM32Imm32, Res.finish_eq_next, Res.andThen_eq_done, resolve_eq_done, memWrite_eq_done] at h
    obtain ⟨a, s1, ⟨hea, rfl⟩, -, rfl⟩ := h
    have hstore : storeAddress (.movM32Imm32 m imm) s1 = some a := by simp [storeAddress, hea]
    exact straight (hstore ▸ (Frame.refl s1).write32 imm)
  | movMoffs32Eax moffs =>
    simp only [exec, execMovMoffs32Eax, resolve_moffs, Res.finish_eq_next, Res.andThen_done, memWrite_eq_done] at h
    obtain ⟨-, rfl⟩ := h
    exact straight ((Frame.refl s).write32 _)
  | movEaxMoffs32 moffs =>
    simp only [exec, execMovEaxMoffs32, resolve_moffs, Res.finish_eq_next, Res.andThen_done, Res.andThen_eq_done,
      memRead_eq_done] at h
    obtain ⟨v, _, ⟨-, -, rfl⟩, h⟩ := h
    exact framedBy_of_setReg (by simp [writtenRegs]) (Res.finish_eq_next.2 h)
  | movRm32R32 dst src => exact framedBy_of_setReg (by simp [writtenRegs]) h
  | movR32Rm32 dst src => exact framedBy_of_setReg (by simp [writtenRegs]) h
  | andR32Imm8 r imm => exact framedBy_of_setReg (by simp [writtenRegs]) h
  | subR32Imm32 r imm => exact framedBy_of_setReg (by simp [writtenRegs]) h
  | leaR32M dst m =>
    simp only [exec, execLeaR32M, Res.finish_eq_next, Res.andThen_eq_done, resolve_eq_done] at h
    obtain ⟨a, _, ⟨-, rfl⟩, h⟩ := h
    exact framedBy_of_setReg (by simp [writtenRegs]) (Res.finish_eq_next.2 h)

/-! ### The statement -/

/-- Settles O23: the frame of the writes before, and what the last write of eip or diag leaves alone. -/
theorem everyInstructionsFrame : Obligations.EveryInstructionsFrame := by
  unfold Obligations.EveryInstructionsFrame
  intro i s t hn h
  obtain ⟨u, hframe, ht⟩ := exec_framedBy hn h
  obtain ⟨hregs, hbytes, hsize, heip, hseg, hbase, himports, hpolicies, hstatus, hdiag, hdraw⟩ := hframe
  have hstores (a : Word) (ha : storeAddress i s = some a) (x : Nat) (hx : x < a.toNat ∨ a.toNat + 4 ≤ x) :
      u.mem.byte x = s.mem.byte x :=
    hbytes x fun a' ha' => by rwa [← Option.some.inj (ha.symm.trans ha')]
  have hstoresNone (ha : storeAddress i s = none) (x : Nat) : u.mem.byte x = s.mem.byte x :=
    hbytes x fun a' ha' => by simp [ha] at ha'
  rcases ht with rfl | ⟨hi, v, rfl⟩ | ⟨m, e, rfl, rfl⟩
  · exact ⟨hregs, hstores, hstoresNone, hsize, hseg, hbase, himports, hpolicies, hstatus, hdraw, fun _ => hdiag,
      fun _ _ _ _ => heip⟩
  · refine ⟨hregs, hstores, hstoresNone, hsize, hseg, hbase, himports, hpolicies, hstatus, hdraw, fun _ => hdiag,
      fun hcall hcallM hret hjmp => ?_⟩
    rcases hi with ⟨rel, e⟩ | ⟨m, e⟩ | e | ⟨rel, e⟩
    · exact absurd e (hcall rel)
    · exact absurd e (hcallM m)
    · exact absurd e hret
    · exact absurd e (hjmp rel)
  · exact ⟨hregs, hstores, hstoresNone, hsize, hseg, hbase, himports, hpolicies, hstatus, hdraw,
      fun hcallM => absurd rfl (hcallM m), fun _ _ _ _ => heip⟩

end Sys2Proof.Machine
end

section
/-! The decoder reads an encoded instruction back, whatever bytes follow it (30_encoding.md R114 to R116, R123, R124):
the memory operand first, then the first byte's rows, then every form. -/

namespace Sys2Proof

/-! ### Memory operands -/

/-- An encodable memory operand is a ModRM byte with mod not 11 and the bytes `decodeMem` reads it back from. -/
theorem exists_encodeMem_eq_cons (reg : BitVec 3) {m : MemOperand} (h : m.wellFormed = true) :
    ∃ md rm tl, encodeMem reg m = fieldsByte md reg rm :: tl ∧ md ≠ 3#2 ∧
      ∀ rest, decodeMem md rm (tl ++ rest) = some (m, rest) := by
  cases m with
  | base b =>
    obtain ⟨hesp, hebp⟩ : b ≠ .esp ∧ b ≠ .ebp := by simpa [MemOperand.wellFormed] using h
    refine ⟨_, _, _, rfl, by decide, fun rest => ?_⟩
    simp [decodeMem, Reg32.toBits_eq_four, Reg32.toBits_eq_five, hesp, hebp]
  | disp32 d => exact ⟨_, _, _, rfl, by decide, fun rest => by simp [decodeMem]⟩
  | baseDisp8 b d =>
    have hesp : b ≠ .esp := by simpa [MemOperand.wellFormed] using h
    exact ⟨_, _, _, rfl, by decide, fun rest => by simp [decodeMem, take8, Reg32.toBits_eq_four, hesp]⟩
  | baseDisp32 b d =>
    have hesp : b ≠ .esp := by simpa [MemOperand.wellFormed] using h
    exact ⟨_, _, _, rfl, by decide, fun rest => by simp [decodeMem, Reg32.toBits_eq_four, hesp]⟩
  | sib x =>
    obtain ⟨hi, hb⟩ : indexOk x.index = true ∧ x.base ≠ .ebp := by simpa [MemOperand.wellFormed] using h
    have hbase : rmField (sibByte x) ≠ 5#3 := by simp [sibByte, Reg32.toBits_eq_five, hb]
    exact ⟨_, _, _, rfl, by decide, fun rest => by simp [decodeMem, hbase, sibOf_sibByte hi]⟩
  | sibNoBase ss i d =>
    have hi : indexOfBits (indexBits i) = i := indexOfBits_indexBits h
    exact ⟨_, _, _, rfl, by decide, fun rest => by simp [decodeMem, sibOf, hi]⟩
  | sibDisp8 x d => exact ⟨_, _, _, rfl, by decide, fun rest => by simp [decodeMem, take8, sibOf_sibByte h]⟩
  | sibDisp32 x d => exact ⟨_, _, _, rfl, by decide, fun rest => by simp [decodeMem, sibOf_sibByte h]⟩

/-! ### The first byte -/

theorem firstByte_pushReg (r : Reg32) : firstByte (0b01010#5 ++ r.toBits) = .pushReg r := by cases r <;> decide

theorem firstByte_popReg (r : Reg32) : firstByte (0b01011#5 ++ r.toBits) = .popReg r := by cases r <;> decide

/-- An opcode byte whose row selects a group hands the bytes after the ModRM byte to the form the group selects. -/
theorem decode_group (pol : EnterLevelPolicy) {b0 : Byte} {g : Group} {md : BitVec 2} {reg rm : BitVec 3}
    {f : ModRMForm} (r : List Byte) (hrow : firstByte b0 = .group g) (hsel : select g md reg = some f) :
    decode pol (b0 :: fieldsByte md reg rm :: r) =
      decodeForm f (fieldsByte md reg rm) (b0 :: fieldsByte md reg rm :: r) r := by
  simp [decode, hrow, hsel]

/-- A form with one 32-bit field is read back. -/
theorem decodeImm32_leBytes (form : Word → Instr) (v : Word) (rest : List Byte) :
    decodeImm32 form (leBytes v ++ rest) = .decoded (form v) rest := by
  simp [decodeImm32]

/-! ### Every form -/

/-- The encoding of a well-formed instruction decodes to it, and what follows is left (R123, R124). -/
theorem decode_encode_append (pol : EnterLevelPolicy) {i : Instr} (h : i.wellFormed pol = true) (rest : List Byte) :
    decode pol (encode i ++ rest) = .decoded i rest := by
  cases i with
  | enter w level =>
    have hlevel : ¬ (pol = .unsupported ∧ level ≠ 0#8) := by
      rintro ⟨rfl, hl⟩
      simp [Instr.wellFormed, hl] at h
    have hrow : firstByte 0xC8#8 = .enter := by decide
    simp only [encode, decode, List.cons_append, List.nil_append, hrow, if_neg hlevel, leHalf_halfByte]
  | callRel32 rel => exact decodeImm32_leBytes .callRel32 rel rest
  | callM32 m =>
    obtain ⟨hm, hindex⟩ : m.wellFormed = true ∧ m.index = none := by simpa [Instr.wellFormed] using h
    obtain ⟨md, rm, tl, henc, hmd, hdec⟩ := exists_encodeMem_eq_cons 2#3 hm
    have hsel : select .gFF md 2#3 = some .callM32 := by simp [select, hmd]
    simp only [encode, henc, List.cons_append]
    refine (decode_group pol _ (by decide) hsel).trans ?_
    simp [decodeForm, hdec, hindex]
  | ret => rfl
  | jmpRel32 rel => exact decodeImm32_leBytes .jmpRel32 rel rest
  | pushImm8 imm => rfl
  | pushImm32 imm => exact decodeImm32_leBytes .pushImm32 imm rest
  | pushR32 r => simp [encode, decode, firstByte_pushReg]
  | pushM32 m =>
    obtain ⟨md, rm, tl, henc, hmd, hdec⟩ := exists_encodeMem_eq_cons 6#3 h
    have hsel : select .gFF md 6#3 = some .pushM32 := by simp [select, hmd]
    simp only [encode, henc, List.cons_append]
    refine (decode_group pol _ (by decide) hsel).trans ?_
    simp [decodeForm, hdec]
  | popR32 r => simp [encode, decode, firstByte_popReg]
  | movM32Imm32 m imm =>
    obtain ⟨md, rm, tl, henc, hmd, hdec⟩ := exists_encodeMem_eq_cons 0#3 h
    have hsel : select .gC7 md 0#3 = some .movM32Imm32 := by simp [select, hmd]
    simp only [encode, henc, List.cons_append]
    refine (decode_group pol _ (by decide) hsel).trans ?_
    simp [decodeForm, hdec]
  | movMoffs32Eax moffs => exact decodeImm32_leBytes .movMoffs32Eax moffs rest
  | movEaxMoffs32 moffs => exact decodeImm32_leBytes .movEaxMoffs32 moffs rest
  | movRm32R32 dst src =>
    have hsel : select .g89 3#2 src.toBits = some .movRm32R32 := rfl
    exact (decode_group pol _ (by decide) hsel).trans (by simp [decodeForm])
  | movR32Rm32 dst src =>
    have hsel : select .g8B 3#2 dst.toBits = some .movR32Rm32 := rfl
    exact (decode_group pol _ (by decide) hsel).trans (by simp [decodeForm])
  | andR32Imm8 r imm =>
    have hsel : select .g83 3#2 4#3 = some .andR32Imm8 := rfl
    exact (decode_group pol _ (by decide) hsel).trans (by simp [decodeForm, take8])
  | subR32Imm32 r imm =>
    have hsel : select .g81 3#2 5#3 = some .subR32Imm32 := rfl
    exact (decode_group pol _ (by decide) hsel).trans (by simp [decodeForm])
  | leaR32M dst m =>
    obtain ⟨md, rm, tl, henc, hmd, hdec⟩ := exists_encodeMem_eq_cons dst.toBits h
    have hsel : select .g8D md dst.toBits = some .leaR32M := by simp [select, hmd]
    simp only [encode, henc, List.cons_append]
    refine (decode_group pol _ (by decide) hsel).trans ?_
    simp [decodeForm, hdec]

end Sys2Proof
end

section
/-! Fetching an instruction that memory holds (10_state.md R41, 30_encoding.md R111, 40_step_pipeline.md R163): the
window at eip begins with its bytes, and the step is its meaning. -/

namespace Sys2Proof.Machine

/-- When memory holds the bytes `bs` from `a` upward, in bounds, a fetch of at least as many begins with them. -/
theorem fetchFrom_eq_append {m : Memory} {bs : List Byte} : ∀ {a : Word} {n : Nat}, bs.length ≤ n →
    (∀ k b, bs[k]? = some b →
      m.inBounds (a + BitVec.ofNat 32 k).toNat 1 ∧ m.byte (a + BitVec.ofNat 32 k).toNat = b) →
    ∃ rest, fetchFrom m a n = bs ++ rest := by
  induction bs with
  | nil => exact fun _ _ => ⟨_, rfl⟩
  | cons b bs ih =>
    intro a n hn hbs
    obtain ⟨n, rfl⟩ : ∃ n', n = n' + 1 := Nat.exists_eq_add_one.2 (Nat.zero_lt_of_lt hn)
    have hfirst : m.fetchByte a = some b := by
      obtain ⟨hb, he⟩ := hbs 0 b rfl
      rw [BitVec.add_zero] at hb he
      rw [Memory.fetchByte, if_pos hb, he]
    have hshift (k : Nat) : a + 1#32 + BitVec.ofNat 32 k = a + BitVec.ofNat 32 (k + 1) := by
      rw [BitVec.add_assoc, ← BitVec.ofNat_add, Nat.add_comm]
    obtain ⟨rest, hrest⟩ := ih (a := a + 1#32) (Nat.le_of_succ_le_succ hn) fun k c hk => by
      rw [hshift]; exact hbs (k + 1) c hk
    exact ⟨rest, by simp [fetchFrom, hfirst, hrest]⟩

/-- The length of every encoding (R9, R122). -/
theorem encodedLength (i : Instr) : Laws.EncodedLength.Statement i := by
  cases i with
  | enter frame level => exact Laws.EncodedLength.enter frame level
  | callRel32 rel => exact Laws.EncodedLength.callRel32 rel
  | callM32 m => exact Laws.EncodedLength.callM32 m
  | ret => exact Laws.EncodedLength.ret
  | jmpRel32 rel => exact Laws.EncodedLength.jmpRel32 rel
  | pushImm8 imm => exact Laws.EncodedLength.pushImm8 imm
  | pushImm32 imm => exact Laws.EncodedLength.pushImm32 imm
  | pushR32 r => exact Laws.EncodedLength.pushR32 r
  | pushM32 m => exact Laws.EncodedLength.pushM32 m
  | popR32 r => exact Laws.EncodedLength.popR32 r
  | movM32Imm32 m imm => exact Laws.EncodedLength.movM32Imm32 m imm
  | movMoffs32Eax moffs => exact Laws.EncodedLength.movMoffs32Eax moffs
  | movEaxMoffs32 moffs => exact Laws.EncodedLength.movEaxMoffs32 moffs
  | movRm32R32 dst src => exact Laws.EncodedLength.movRm32R32 dst src
  | movR32Rm32 dst src => exact Laws.EncodedLength.movR32Rm32 dst src
  | andR32Imm8 r imm => exact Laws.EncodedLength.andR32Imm8 r imm
  | subR32Imm32 r imm => exact Laws.EncodedLength.subR32Imm32 r imm
  | leaR32M dst m => exact Laws.EncodedLength.leaR32M dst m

/-- Every encoding fits into the window. -/
theorem encode_length_le (i : Instr) : (encode i).length ≤ maxLength := by
  obtain ⟨hlen, -, hmax⟩ := encodedLength i
  exact hlen ▸ hmax

/-- Settles O11: the window begins with the encoding, which decodes to the instruction. -/
theorem stepRunsTheInstructionInMemory : Obligations.StepRunsTheInstructionInMemory := by
  unfold Obligations.StepRunsTheInstructionInMemory
  intro s i hs hwf hmem
  obtain ⟨rest, hwindow⟩ := fetchFrom_eq_append (encode_length_le i) hmem
  have hdecode : decode s.policies.enterLevel (fetchWindow s) = .decoded i rest := by
    rw [fetchWindow, hwindow, decode_encode_append _ hwf]
  exact step_of_decoded hs (fetchDecode_of_decoded hdecode)

end Sys2Proof.Machine
end

section
/-! Two more things every step keeps, whatever its outcome and whatever its handlers do (10_state.md R47, R49;
42_control_transfer.md R226). -/

namespace Sys2Proof.Machine

/-- No write of a step reaches the import table or the policies. -/
theorem keptByWrites_imports_policies (s : State) :
    KeptByWrites fun t => t.imports = s.imports ∧ t.policies = s.policies where
  setReg _ _ _ h := h
  setEip _ _ h := h
  halt _ _ h := h
  write32 _ _ _ _ h := h
  emit _ _ h := h
  afterHandler _ _ h := h

/-- Settles O20: each write keeps both. -/
theorem importsAndPoliciesNeverChange : Obligations.ImportsAndPoliciesNeverChange := by
  unfold Obligations.ImportsAndPoliciesNeverChange
  exact fun s => (keptByWrites_imports_policies s).next_and_fault ⟨rfl, rfl⟩

/-- The two writes of diag append. -/
theorem keptByWrites_diag (s : State) : KeptByWrites fun t => s.diag <+: t.diag where
  setReg _ _ _ h := h
  setEip _ _ h := h
  halt _ _ h := h
  write32 _ _ _ _ h := h
  emit t e h := h.trans (t.diag.prefix_append [e])
  afterHandler t l h := h.trans (t.diag.prefix_append l.events)

/-- Settles O21: each write keeps the events before it. -/
theorem diagIsAppendOnly : Obligations.DiagIsAppendOnly := by
  unfold Obligations.DiagIsAppendOnly
  exact fun s => (keptByWrites_diag s).next_and_fault s.diag.prefix_refl

end Sys2Proof.Machine
end

section
/-! The machine after construction (10_state.md R51): what its registers hold, and that its memory holds the bytes the
loader lists. -/

namespace Sys2Proof.Machine

/-! ### The bytes of a memory built from a list -/

/-- Bytes written for other addresses leave a byte alone. -/
theorem Memory.byte_foldl_of_not_listed {cells : List Host.Cell} {x size : Nat} (h : ∀ c ∈ cells, c.1 ≠ x) :
    ∀ m : Memory,
      (cells.foldl (fun m c => if c.1 < size then m.setByte c.1 c.2 else m) m).byte x = m.byte x := by
  induction cells with
  | nil => exact fun _ => rfl
  | cons c cs ih =>
    intro m
    rw [List.foldl_cons, ih fun d hd => h d (List.mem_cons_of_mem c hd)]
    split
    · exact m.byte_setByte_of_ne c.2 (h c List.mem_cons_self).symm
    · rfl

/-- Of entries for different addresses, each one below the size reads back. -/
theorem Memory.byte_foldl_of_listed {cells : List Host.Cell} {size : Nat}
    (hne : cells.Pairwise fun c d => c.1 ≠ d.1) {c : Host.Cell} (hc : c ∈ cells) (hlt : c.1 < size) :
    ∀ m : Memory,
      (cells.foldl (fun m c => if c.1 < size then m.setByte c.1 c.2 else m) m).byte c.1 = c.2 := by
  induction cells with
  | nil => cases hc
  | cons d cs ih =>
    intro m
    obtain ⟨hd, hcs⟩ := List.pairwise_cons.1 hne
    rw [List.foldl_cons]
    rcases List.mem_cons.1 hc with rfl | hc
    · rw [byte_foldl_of_not_listed fun e he => (hd e he).symm, if_pos hlt, byte_setByte_self]
    · exact ih hcs hc _

/-- A memory built from entries for different addresses holds each entry below its size. -/
theorem Memory.byte_ofCells {cells : List Host.Cell} {size : Nat} (hne : cells.Pairwise fun c d => c.1 ≠ d.1)
    {c : Host.Cell} (hc : c ∈ cells) (hlt : c.1 < size) : (Memory.ofCells size cells).byte c.1 = c.2 :=
  byte_foldl_of_listed hne hc hlt _

/-! ### The constructed machine -/

theorem construct_reg (p : LoadParams) (r : Reg32) : (construct p).reg r = 0#32 := by cases r <;> rfl

theorem hostGetSeg_construct (p : LoadParams) (r : SegReg) : hostGetSeg r (construct p) = 0#16 := by cases r <;> rfl

theorem construct_mem (p : LoadParams) : (construct p).mem = Memory.ofCells p.memSize.val p.memInit := rfl

/-- Settles O26: the memory is that of the loader's list, and every other field a given value. -/
theorem constructionValues : Obligations.ConstructionValues := by
  unfold Obligations.ConstructionValues
  intro p
  have hsize : (construct p).mem.size = p.memSize.val := by
    rw [construct_mem, Memory.size_ofCells (Nat.lt_succ_iff.1 p.memSize.isLt)]
  exact ⟨construct_reg p, rfl, hostGetSeg_construct p, hsize, fun hne _ hc hlt => Memory.byte_ofCells hne hc hlt, rfl,
    rfl, rfl, rfl⟩

end Sys2Proof.Machine
end

section
/-! The host's access to registers (10_state.md R36 to R38, R43; 40_step_pipeline.md R173). -/

namespace Sys2Proof.Machine

open Sys2Proof.Safety

/-! ### General registers, eip and NONE -/

/-- A register write changes that register only. -/
theorem onlyReg_setReg (s : State) (r : Reg32) (v : Word) : OnlyReg s (s.setReg r v) r v :=
  ⟨s.setReg_reg_self r v, fun _ hq => s.setReg_reg_of_ne v (List.ne_of_not_mem_cons hq), rfl, rfl, rfl, rfl, rfl, rfl,
    rfl, rfl, rfl⟩

/-- Settles O55: one clause for each kind of identifier. -/
theorem hostGetAndSet : Obligations.HostGetAndSet := by
  unfold Obligations.HostGetAndSet
  refine ⟨fun r v s => ⟨rfl, s.setReg r v, rfl, onlyReg_setReg s r v⟩, fun _ _ => ⟨rfl, rfl⟩, fun _ _ => ⟨rfl, rfl⟩,
    fun id v s hgpr heip hnone => ?_⟩
  cases id with
  | gpr r => exact absurd rfl (hgpr r)
  | eip => exact absurd rfl heip
  | none => exact absurd rfl hnone
  | seg r => exact ⟨rfl, rfl⟩
  | other n => exact ⟨rfl, rfl⟩

/-! ### Segment registers -/

@[simp] theorem SegFile.get_set_self (g : SegFile) (r : SegReg) (v : Half) : (g.set r v).get r = v := by
  cases r <;> rfl

theorem SegFile.get_set_of_ne (g : SegFile) {q r : SegReg} (v : Half) (h : q ≠ r) : (g.set r v).get q = g.get q := by
  cases r <;> cases q <;> first | rfl | exact absurd rfl h

/-- Settles O56: the one register reads back, the other five as before. -/
theorem hostSegmentAccess : Obligations.HostSegmentAccess := by
  unfold Obligations.HostSegmentAccess
  refine fun q r v s => ⟨?_, rfl, rfl, rfl, rfl⟩
  split
  · next h => exact h ▸ s.seg.get_set_self q v
  · next h => exact s.seg.get_set_of_ne v h

end Sys2Proof.Machine
end

section
/-! The memory primitives (20_memory.md R73 to R75, R79, R92): what the four bytes of an access are, before and after a
write. -/

namespace Sys2Proof.Machine

open Sys2Proof.Safety

/-! ### The four bytes of an access -/

/-- A little-endian read answers the word whose bytes are the four at the address (R73, R78). -/
theorem readsAs_read32 (m : Memory) (a : Word) : ReadsAs m a (m.read32 a.toNat) := by
  intro k hk
  have hbytes : leBytes (m.read32 a.toNat) =
      [m.byte a.toNat, m.byte (a.toNat + 1), m.byte (a.toNat + 2), m.byte (a.toNat + 3)] := leBytes_leWord _ _ _ _
  simp only [leBytes, List.cons.injEq, and_true] at hbytes
  obtain ⟨h0, h1, h2, h3⟩ := hbytes
  obtain rfl | rfl | rfl | rfl : k = 0 ∨ k = 1 ∨ k = 2 ∨ k = 3 := by omega
  · exact h0.symm
  · exact h1.symm
  · exact h2.symm
  · exact h3.symm

/-- A 4-byte write stores the word and leaves every other byte alone (R74). -/
theorem storedAt_write32 (m : Memory) (a v : Word) : StoredAt m (m.write32 a.toNat v) a v :=
  ⟨rfl, fun _ hk => m.byte_write32_inside a.toNat v hk, fun _ hx => m.byte_write32_outside v hx⟩

/-! ### Reading and writing -/

/-- Settles O27: the two cases of `MemRead`. -/
theorem memReadIsLittleEndian : Obligations.MemReadIsLittleEndian := by
  unfold Obligations.MemReadIsLittleEndian
  intro a s
  rcases memRead_cases a s with ⟨hb, e⟩ | ⟨hb, e⟩
  · exact ⟨fun _ => ⟨s.mem.read32 a.toNat, readsAs_read32 s.mem a, e⟩, fun hout => absurd hb hout⟩
  · exact ⟨fun hin => absurd hin hb, fun _ => e⟩

/-- Settles O28: the two cases of `MemWrite`. -/
theorem memWriteStoresOrFaultsWhole : Obligations.MemWriteStoresOrFaultsWhole := by
  unfold Obligations.MemWriteStoresOrFaultsWhole
  intro a v s
  rcases memWrite_cases a v s with ⟨hb, e⟩ | ⟨hb, e⟩
  · exact ⟨fun _ => ⟨s.mem.write32 a.toNat v, storedAt_write32 s.mem a v, e⟩, fun hout => absurd hb hout⟩
  · exact ⟨fun hin => absurd hin hb, fun _ => e⟩

/-! ### Fetching -/

/-- A fetch in bounds answers the byte (R75). -/
theorem Memory.fetchByte_of_inBounds {m : Memory} {a : Word} (h : m.inBounds a.toNat 1) :
    m.fetchByte a = some (m.byte a.toNat) := if_pos h

/-- Within an access in bounds, no address wraps around the top of the address space (R72). -/
theorem toNat_add_of_inBounds {m : Memory} {a : Word} {k n : Nat} (hsize : m.size ≤ Config.maxMemSize)
    (h : m.inBounds a.toNat n) (hk : k < n) : (a + BitVec.ofNat 32 k).toNat = a.toNat + k := by
  have hlt : a.toNat + k < 2 ^ 32 := by
    unfold Memory.inBounds at h
    unfold Config.maxMemSize at hsize
    omega
  rw [BitVec.toNat_add, BitVec.toNat_ofNat, Nat.add_mod_mod, Nat.mod_eq_of_lt hlt]

/-- Settles O29: none of the four addresses wraps, so each fetch reads a byte the write stored. -/
theorem fetchSeesTheWrittenBytes : Obligations.FetchSeesTheWrittenBytes := by
  unfold Obligations.FetchSeesTheWrittenBytes
  intro a v s t k hsize hw hk
  obtain ⟨hb, rfl⟩ := memWrite_eq_done.1 hw
  have haddr := toNat_add_of_inBounds hsize hb hk
  have hfetch : (s.mem.write32 a.toNat v).inBounds (a + BitVec.ofNat 32 k).toNat 1 := by
    rw [haddr, Memory.inBounds, Memory.size_write32]
    unfold Memory.inBounds at hb
    omega
  rw [State.setMem_mem, Memory.fetchByte_of_inBounds hfetch, haddr, Memory.byte_write32_inside _ _ _ hk]

end Sys2Proof.Machine
end

section
/-! The effective address (20_memory.md R84 to R88): one lemma for each policy, and what a scale field other than 00
does to the forms with a memory operand. -/

namespace Sys2Proof.Machine

open Sys2Proof.Safety

/-! ### The address under each policy -/

/-- A scale field other than 00 is a violation under every policy (R85). -/
theorem effectiveAddress_of_scaled {p : MemParts} (h : p.ss ≠ 0#2) (s : State) :
    effectiveAddress p s = .error .scaleNotOne := if_pos h

section
variable {p : MemParts} {s : State}

theorem effectiveAddress_of_add (h : p.ss = 0#2) (hpol : s.policies.eaBase = .add) :
    effectiveAddress p s = .ok (s.regOrNone p.base + s.regOrNone p.index + p.disp) := by
  simp [effectiveAddress, h, hpol]

theorem effectiveAddress_of_ignore (h : p.ss = 0#2) (hpol : s.policies.eaBase = .ignore) :
    effectiveAddress p s = .ok (s.regOrNone p.index + p.disp) := by
  simp [effectiveAddress, h, hpol]

theorem effectiveAddress_of_violation_none (h : p.ss = 0#2) (hpol : s.policies.eaBase = .violation)
    (hbase : p.base = none) : effectiveAddress p s = .ok (s.regOrNone p.index + p.disp) := by
  simp [effectiveAddress, h, hpol, hbase]

theorem effectiveAddress_of_violation_base (h : p.ss = 0#2) (hpol : s.policies.eaBase = .violation)
    (hbase : p.base ≠ none) : effectiveAddress p s = .error .baseRegister := by
  simp [effectiveAddress, h, hpol, Option.isSome_iff_ne_none.2 hbase]

end

/-! ### The addressing modes of R88 -/

/-- The sign extension of R11, as the integer that its value is. -/
theorem sext8_eq_ofInt (b : Byte) : sext8 b = BitVec.ofInt 32 b.toInt := rfl

/-- Under `add`, an operand of scale field 00 comes to the sum of the parts its encoding has (R84, R88). -/
theorem effectiveAddress_memParts {m : MemOperand} {s : State} (hpol : s.policies.eaBase = .add) {a : Word}
    (hss : (memParts m).ss = 0#2)
    (ha : s.regOrNone (memParts m).base + s.regOrNone (memParts m).index + (memParts m).disp = a) :
    effectiveAddress (memParts m) s = .ok a := ha ▸ effectiveAddress_of_add hss hpol

/-- Settles O30: the scale field first, then the policies, then each row of R88. -/
theorem effectiveAddressPolicies : Obligations.EffectiveAddressPolicies := by
  unfold Obligations.EffectiveAddressPolicies
  intro p s
  refine ⟨fun h => effectiveAddress_of_scaled h s,
    fun h => ⟨effectiveAddress_of_add h, effectiveAddress_of_ignore h, effectiveAddress_of_violation_none h,
      effectiveAddress_of_violation_base h⟩,
    fun d => effectiveAddress_plain d s, s.regOrNone_none, s.regOrNone_some, fun hpol b i d8 d => ?_⟩
  refine ⟨effectiveAddress_plain d s, ?_, ?_, ?_, ?_, ?_, ?_, ?_⟩
  all_goals exact effectiveAddress_memParts hpol rfl (by simp [memParts, sext8_eq_ofInt])

/-! ### A scale field other than 00 -/

/-- An instruction that starts by resolving its operand ends by the operand's violation, with only `status` changed
(R14, R84, R169). -/
theorem violationHalts_of_effectiveAddress {p : MemParts} {s : State} {k : ViolationKind}
    (h : effectiveAddress p s = .error k) (f : Word → State → Res Unit) :
    ViolationHalts s k ((resolve p s).andThen f).finish := by
  unfold ViolationHalts
  rw [resolve, h]
  rfl

/-- Settles O31: each of the four forms resolves its operand first. -/
theorem scaleNotOneHalts : Obligations.ScaleNotOneHalts := by
  unfold Obligations.ScaleNotOneHalts
  refine ⟨fun m s hss => ?_, fun _ _ _ => ⟨rfl, rfl, rfl, rfl⟩⟩
  have hea := effectiveAddress_of_scaled hss s
  exact ⟨violationHalts_of_effectiveAddress hea _, violationHalts_of_effectiveAddress hea _,
    fun _ => violationHalts_of_effectiveAddress hea _, fun _ => violationHalts_of_effectiveAddress hea _⟩

end Sys2Proof.Machine
end

section
/-! A resize by the host (20_memory.md R77, R89; 40_step_pipeline.md R173): memory is built again from the entries that
stay, so a byte below both sizes is the same whether or not an entry lists it. -/

namespace Sys2Proof.Machine

open Sys2Proof.Safety

/-! ### The byte at an address, listed or not -/

/-- Of entries for different addresses, each reads back. -/
theorem cellAt_of_mem {cells : List Host.Cell} (hne : cells.Pairwise fun c d => c.1 ≠ d.1) {c : Host.Cell}
    (hc : c ∈ cells) : cellAt cells c.1 = c.2 := by
  induction cells with
  | nil => cases hc
  | cons d cs ih =>
    obtain ⟨hd, hcs⟩ := List.pairwise_cons.1 hne
    rcases List.mem_cons.1 hc with rfl | hc
    · exact if_pos rfl
    · rw [cellAt, if_neg (hd c hc), ih hcs hc]

/-- An address that no entry lists reads as the unlisted byte. -/
theorem cellAt_of_not_listed {cells : List Host.Cell} {x : Nat} (h : ∀ c ∈ cells, c.1 ≠ x) :
    cellAt cells x = Config.unlistedByte := by
  induction cells with
  | nil => rfl
  | cons c cs ih =>
    rw [cellAt, if_neg (h c List.mem_cons_self), ih fun d hd => h d (List.mem_cons_of_mem c hd)]

/-! ### Resizing -/

/-- The entries that a resize takes over keep every byte below both sizes (R77). -/
theorem Memory.byte_resize {m : Memory} (h : m.wf) {size x : Nat} (grown : List Host.Cell) (hx : x < size)
    (hxm : x < m.size) : (m.resize size grown).byte x = m.byte x := by
  obtain ⟨-, hsorted, -⟩ := h
  have hne : m.cells.Pairwise fun c d => c.1 ≠ d.1 := hsorted.imp Nat.ne_of_lt
  have hgrown : ∀ c ∈ grown.filter fun c => m.size ≤ c.1, c.1 ≠ x := by
    intro c hc
    have := of_decide_eq_true (List.mem_filter.1 hc).2
    omega
  unfold Memory.resize Memory.ofCells
  rw [List.foldl_append]
  by_cases hlisted : ∃ c ∈ m.cells, c.1 = x
  · obtain ⟨c, hc, rfl⟩ := hlisted
    have hkept : c ∈ m.cells.filter fun c => c.1 < m.size := List.mem_filter.2 ⟨hc, decide_eq_true hxm⟩
    rw [byte_foldl_of_listed (hne.filter _) hkept hx, Memory.byte, cellAt_of_mem hne hc]
  · have hno : ∀ c ∈ m.cells, c.1 ≠ x := fun c hc heq => hlisted ⟨c, hc, heq⟩
    rw [byte_foldl_of_not_listed fun c hc => hno c (List.mem_filter.1 hc).1, byte_foldl_of_not_listed hgrown,
      Memory.byte, Memory.byte, cellAt_of_not_listed hno, cellAt]

/-- Settles O58: only memory is written, and it is the resized one. -/
theorem hostResizeKeepsBytes : Obligations.HostResizeKeepsBytes := by
  unfold Obligations.HostResizeKeepsBytes
  intro size grown s hwf
  have hmax : size.val ≤ Config.maxMemSize := Nat.lt_succ_iff.1 size.isLt
  exact ⟨Memory.size_ofCells hmax _, s.mem.wf_resize hmax grown, fun _ hx hxm => Memory.byte_resize hwf grown hx hxm,
    rfl, rfl, rfl, rfl, rfl, rfl, rfl, rfl, rfl⟩

end Sys2Proof.Machine
end

section
/-! The encoding's statements (30_encoding.md R113 to R129): what each part of the decoder accepts, from the fields of an
instruction up to the whole of it, and what it refuses. -/

namespace Sys2Proof

/-! ### The first byte (R123, R125) -/

/-- The opcode byte of a group's row (R123). -/
def Group.opcode : Group → Byte
  | .g81 => 0x81#8
  | .g83 => 0x83#8
  | .g89 => 0x89#8
  | .g8B => 0x8B#8
  | .g8D => 0x8D#8
  | .gC7 => 0xC7#8
  | .gFF => 0xFF#8

/-- The one byte that a row of R123 stands for; legacy prefixes and unlisted bytes have none. -/
def FirstByte.opcode : FirstByte → Option Byte
  | .legacyPrefix => none
  | .pushReg r => some (0b01010#5 ++ r.toBits)
  | .popReg r => some (0b01011#5 ++ r.toBits)
  | .ret => some 0xC3#8
  | .pushImm8 => some 0x6A#8
  | .pushImm32 => some 0x68#8
  | .callRel32 => some 0xE8#8
  | .jmpRel32 => some 0xE9#8
  | .movEaxMoffs => some 0xA1#8
  | .movMoffsEax => some 0xA3#8
  | .enter => some 0xC8#8
  | .group g => some g.opcode
  | .other => none

/-- A byte that has a row is that row's byte. -/
theorem opcode_firstByte (b : Byte) : (firstByte b).opcode = none ∨ (firstByte b).opcode = some b := by
  revert b; decide

/-- Only its own byte has a row. -/
theorem eq_opcode_of_firstByte {b c : Byte} {row : FirstByte} (hrow : firstByte b = row) (hc : row.opcode = some c) :
    b = c := by
  rcases opcode_firstByte b with h | h <;> rw [hrow, hc] at h
  · cases h
  · exact (Option.some.inj h).symm

/-- The byte of a group has the group's row. -/
@[simp] theorem firstByte_opcode (g : Group) : firstByte g.opcode = .group g := by cases g <;> decide

/-- A byte that stands for no row is refused alone (R125, R126). -/
theorem decode_of_opcode_eq_none (pol : EnterLevelPolicy) {b : Byte} (h : (firstByte b).opcode = none)
    (rest : List Byte) : decode pol (b :: rest) = .unsupported [b] := by
  cases hrow : firstByte b with
  | legacyPrefix => simp [decode, hrow]
  | other => simp [decode, hrow]
  | _ => simp [hrow, FirstByte.opcode] at h

/-! ### The ModRM byte (R123, R127) -/

/-- The row of R123 that a form with a ModRM byte has: its group, its condition on mod and its reg field. -/
def ModRMForm.Row (g : Group) (md : BitVec 2) (reg : BitVec 3) : ModRMForm → Prop
  | .callM32 => g = .gFF ∧ md ≠ 3#2 ∧ reg = 2#3
  | .pushM32 => g = .gFF ∧ md ≠ 3#2 ∧ reg = 6#3
  | .movM32Imm32 => g = .gC7 ∧ md ≠ 3#2 ∧ reg = 0#3
  | .movRm32R32 => g = .g89 ∧ md = 3#2
  | .movR32Rm32 => g = .g8B ∧ md = 3#2
  | .andR32Imm8 => g = .g83 ∧ md = 3#2 ∧ reg = 4#3
  | .subR32Imm32 => g = .g81 ∧ md = 3#2 ∧ reg = 5#3
  | .leaR32M => g = .g8D ∧ md ≠ 3#2

/-- A form is selected by its row only. -/
theorem row_of_select {g : Group} {md : BitVec 2} {reg : BitVec 3} {f : ModRMForm} (h : select g md reg = some f) :
    f.Row g md reg := by
  cases g with
  | g81 | g83 | g89 | g8B | gC7 =>
    obtain ⟨hc, hf⟩ := Option.ite_none_right_eq_some.1 h
    cases hf
    simpa [ModRMForm.Row] using hc
  | g8D =>
    obtain ⟨hmem, hf⟩ := Option.ite_none_left_eq_some.1 h
    cases hf
    exact ⟨rfl, hmem⟩
  | gFF =>
    obtain ⟨hmem, hform⟩ := Option.ite_none_left_eq_some.1 h
    split at hform
    next hcall =>
      cases hform
      exact ⟨rfl, hmem, hcall⟩
    next =>
      obtain ⟨hpush, hf⟩ := Option.ite_none_right_eq_some.1 hform
      cases hf
      exact ⟨rfl, hmem, hpush⟩

/-- FF selects a form by reg = 010 or 110, and not with mod = 11. -/
theorem select_gFF_eq_none_iff (md : BitVec 2) (reg : BitVec 3) :
    select .gFF md reg = none ↔ ¬ ((reg = 2#3 ∨ reg = 6#3) ∧ md ≠ 3#2) := by
  by_cases hmd : md = 3#2
  · simp [select, hmd]
  · by_cases hcall : reg = 2#3
    · simp [select, hmd, hcall]
    · simp [select, hmd, hcall]

/-- Every ModRM byte has three fields. -/
theorem exists_eq_fieldsByte (m : Byte) : ∃ md reg rm, m = fieldsByte md reg rm :=
  ⟨modField m, regField m, rmField m, (fieldsByte_fields m).symm⟩

theorem toNat_modField (m : Byte) : (modField m).toNat = m.toNat / 64 := by revert m; decide

theorem toNat_regField (m : Byte) : (regField m).toNat = m.toNat / 8 % 8 := by revert m; decide

/-! ### Memory operands (R114 to R116) -/

theorem Reg32.ofBits_eq_esp (n : BitVec 3) : Reg32.ofBits n = .esp ↔ n = 4#3 := by
  rw [← Reg32.toBits_eq_four, Reg32.toBits_ofBits]

theorem Reg32.ofBits_eq_ebp (n : BitVec 3) : Reg32.ofBits n = .ebp ↔ n = 5#3 := by
  rw [← Reg32.toBits_eq_five, Reg32.toBits_ofBits]

/-- An operand that ends in an 8-bit displacement: the byte follows. -/
theorem map_take8_eq_some {form : Byte → MemOperand} {bs rest : List Byte} {o : MemOperand}
    (h : ((take8 bs).map fun x => (form x.1, x.2)) = some (o, rest)) : ∃ d, o = form d ∧ bs = d :: rest := by
  obtain ⟨⟨d, r⟩, hd, heq⟩ := Option.map_eq_some_iff.1 h
  cases heq
  exact ⟨d, rfl, take8_eq_some hd⟩

/-- An operand that ends in a 32-bit displacement: its bytes follow. -/
theorem map_take32_eq_some {form : Word → MemOperand} {bs rest : List Byte} {o : MemOperand}
    (h : ((take32 bs).map fun x => (form x.1, x.2)) = some (o, rest)) : ∃ d, o = form d ∧ bs = leBytes d ++ rest := by
  obtain ⟨⟨d, r⟩, hd, heq⟩ := Option.map_eq_some_iff.1 h
  cases heq
  exact ⟨d, rfl, take32_eq_some hd⟩

/-- What `decodeMem` accepts is encodable, and the bytes are its encoding. -/
theorem decodeMem_eq_some {md : BitVec 2} {rm : BitVec 3} {bs rest : List Byte} {o : MemOperand} (hmd : md ≠ 3#2)
    (h : decodeMem md rm bs = some (o, rest)) :
    o.wellFormed = true ∧ ∀ reg, fieldsByte md reg rm :: bs = encodeMem reg o ++ rest := by
  have hmd2 (h0 : md ≠ 0#2) (h1 : md ≠ 1#2) : md = 2#2 := by bv_omega
  unfold decodeMem at h
  split at h
  next hsib =>
    subst hsib
    match bs, h with
    | sb :: r, h =>
      simp only at h
      split at h
      next h0 =>
        split at h
        next hbase =>
          obtain ⟨d, rfl, rfl⟩ := map_take32_eq_some h
          exact ⟨by simp [MemOperand.wellFormed, sibOf], fun reg => by simp [encodeMem, sibOf, h0, ← hbase]⟩
        next hbase =>
          cases h
          exact ⟨by simp [MemOperand.wellFormed, sibOf, Reg32.ofBits_eq_ebp, hbase],
            fun reg => by simp [encodeMem, h0]⟩
      next h0 =>
        split at h
        next h1 =>
          obtain ⟨d, rfl, rfl⟩ := map_take8_eq_some h
          exact ⟨by simp [MemOperand.wellFormed, sibOf], fun reg => by simp [encodeMem, h1]⟩
        next h1 =>
          obtain ⟨d, rfl, rfl⟩ := map_take32_eq_some h
          exact ⟨by simp [MemOperand.wellFormed, sibOf], fun reg => by simp [encodeMem, hmd2 h0 h1]⟩
  next hsib =>
    split at h
    next h0 =>
      split at h
      next hdisp =>
        obtain ⟨d, rfl, rfl⟩ := map_take32_eq_some h
        exact ⟨rfl, fun reg => by simp [encodeMem, h0, hdisp]⟩
      next hdisp =>
        cases h
        exact ⟨by simp [MemOperand.wellFormed, Reg32.ofBits_eq_esp, Reg32.ofBits_eq_ebp, hsib, hdisp],
          fun reg => by simp [encodeMem, h0]⟩
    next h0 =>
      split at h
      next h1 =>
        obtain ⟨d, rfl, rfl⟩ := map_take8_eq_some h
        exact ⟨by simp [MemOperand.wellFormed, Reg32.ofBits_eq_esp, hsib], fun reg => by simp [encodeMem, h1]⟩
      next h1 =>
        obtain ⟨d, rfl, rfl⟩ := map_take32_eq_some h
        exact ⟨by simp [MemOperand.wellFormed, Reg32.ofBits_eq_esp, hsib],
          fun reg => by simp [encodeMem, hmd2 h0 h1]⟩

/-- An operand takes the `L(m)` bytes of R122. -/
theorem length_of_decodeMem {md : BitVec 2} {rm : BitVec 3} {bs rest : List Byte} {o : MemOperand} (hmd : md ≠ 3#2)
    (h : decodeMem md rm bs = some (o, rest)) : bs.length = o.tail + rest.length := by
  obtain ⟨-, hbytes⟩ := decodeMem_eq_some hmd h
  have hlen := congrArg List.length (hbytes 0#3)
  simp only [List.length_cons, List.length_append, Laws.encodeMem_length] at hlen
  omega

/-- An operand with an index has a SIB byte. -/
theorem tail_pos_of_index {o : MemOperand} (h : o.index ≠ none) : 1 ≤ o.tail := by
  cases o <;> simp_all [MemOperand.index, MemOperand.tail]

/-! ### The forms -/

/-- What a form with one 32-bit field accepts. -/
theorem decodeImm32_eq_decoded {form : Word → Instr} {r rest : List Byte} {i : Instr}
    (h : decodeImm32 form r = .decoded i rest) : ∃ v, i = form v ∧ r = leBytes v ++ rest := by
  unfold decodeImm32 at h
  split at h
  next v r2 hv =>
    cases h
    exact ⟨v, rfl, take32_eq_some hv⟩
  next => cases h

/-- What a selected form accepts is well formed, and the opcode byte, the ModRM byte and the bytes after it are its
encoding. -/
theorem decodeForm_eq_decoded (pol : EnterLevelPolicy) {f : ModRMForm} {g : Group} {md : BitVec 2} {reg rm : BitVec 3}
    {bs r rest : List Byte} {i : Instr} (hsel : select g md reg = some f)
    (h : decodeForm f (fieldsByte md reg rm) bs r = .decoded i rest) :
    i.wellFormed pol = true ∧ g.opcode :: fieldsByte md reg rm :: r = encode i ++ rest := by
  have hrow := row_of_select hsel
  cases f with
  | movRm32R32 =>
    obtain ⟨rfl, rfl⟩ := hrow
    cases h
    exact ⟨rfl, by simp [encode, Group.opcode]⟩
  | movR32Rm32 =>
    obtain ⟨rfl, rfl⟩ := hrow
    cases h
    exact ⟨rfl, by simp [encode, Group.opcode]⟩
  | andR32Imm8 =>
    obtain ⟨rfl, rfl, rfl⟩ := hrow
    simp only [decodeForm, rmField_fieldsByte] at h
    split at h
    next v r2 hv =>
      cases h
      exact ⟨rfl, by simp [encode, Group.opcode, take8_eq_some hv]⟩
    next => cases h
  | subR32Imm32 =>
    obtain ⟨rfl, rfl, rfl⟩ := hrow
    simp only [decodeForm, rmField_fieldsByte] at h
    split at h
    next v r2 hv =>
      cases h
      exact ⟨rfl, by simp [encode, Group.opcode, take32_eq_some hv]⟩
    next => cases h
  | leaR32M =>
    obtain ⟨rfl, hmd⟩ := hrow
    simp only [decodeForm, modField_fieldsByte, regField_fieldsByte, rmField_fieldsByte] at h
    split at h
    next o r2 ho =>
      cases h
      obtain ⟨hwf, hbytes⟩ := decodeMem_eq_some hmd ho
      exact ⟨hwf, by simp [encode, Group.opcode, hbytes reg]⟩
    next => cases h
  | pushM32 =>
    obtain ⟨rfl, hmd, rfl⟩ := hrow
    simp only [decodeForm, modField_fieldsByte, rmField_fieldsByte] at h
    split at h
    next o r2 ho =>
      cases h
      obtain ⟨hwf, hbytes⟩ := decodeMem_eq_some hmd ho
      exact ⟨hwf, by simp [encode, Group.opcode, hbytes]⟩
    next => cases h
  | callM32 =>
    obtain ⟨rfl, hmd, rfl⟩ := hrow
    simp only [decodeForm, modField_fieldsByte, rmField_fieldsByte] at h
    split at h
    next o r2 ho =>
      obtain ⟨hwf, hbytes⟩ := decodeMem_eq_some hmd ho
      split at h
      next hindex =>
        cases h
        exact ⟨by simp [Instr.wellFormed, hwf, hindex], by simp [encode, Group.opcode, hbytes]⟩
      next => cases h
    next => cases h
  | movM32Imm32 =>
    obtain ⟨rfl, hmd, rfl⟩ := hrow
    simp only [decodeForm, modField_fieldsByte, rmField_fieldsByte] at h
    split at h
    next o r2 ho =>
      obtain ⟨hwf, hbytes⟩ := decodeMem_eq_some hmd ho
      split at h
      next v r3 hv =>
        cases h
        exact ⟨hwf, by simp [encode, Group.opcode, hbytes, take32_eq_some hv]⟩
      next => cases h
    next => cases h

/-- What the decoder accepts is well formed, and the bytes are its encoding and the rest. -/
theorem wellFormed_and_eq_of_decode {pol : EnterLevelPolicy} {bs rest : List Byte} {i : Instr}
    (h : decode pol bs = .decoded i rest) : i.wellFormed pol = true ∧ bs = encode i ++ rest := by
  match bs, h with
  | b0 :: r, h =>
    unfold decode at h
    cases hrow : firstByte b0 with
    | legacyPrefix => simp [hrow] at h
    | other => simp [hrow] at h
    | pushReg | popReg | ret =>
      obtain rfl := eq_opcode_of_firstByte hrow rfl
      simp only [hrow] at h
      cases h
      exact ⟨rfl, rfl⟩
    | pushImm8 =>
      obtain rfl := eq_opcode_of_firstByte hrow rfl
      simp only [hrow] at h
      split at h
      next v r2 hv =>
        cases h
        exact ⟨rfl, by simp [encode, take8_eq_some hv]⟩
      next => cases h
    | pushImm32 | callRel32 | jmpRel32 | movEaxMoffs | movMoffsEax =>
      obtain rfl := eq_opcode_of_firstByte hrow rfl
      simp only [hrow] at h
      obtain ⟨v, rfl, rfl⟩ := decodeImm32_eq_decoded h
      exact ⟨rfl, rfl⟩
    | enter =>
      obtain rfl := eq_opcode_of_firstByte hrow rfl
      simp only [hrow] at h
      split at h
      next b1 b2 b3 r2 =>
        split at h
        next => cases h
        next hlevel =>
          cases h
          exact ⟨by cases pol <;> simp_all [Instr.wellFormed], by simp [encode]⟩
      next => cases h
    | group g =>
      obtain rfl := eq_opcode_of_firstByte hrow rfl
      obtain ⟨m, r2, rfl⟩ : ∃ m r2, r = m :: r2 := by
        cases r with
        | nil => simp [hrow] at h
        | cons m r2 => exact ⟨m, r2, rfl⟩
      obtain ⟨md, reg, rm, rfl⟩ := exists_eq_fieldsByte m
      simp only [hrow, modField_fieldsByte, regField_fieldsByte] at h
      split at h
      next => cases h
      next f hsel => exact decodeForm_eq_decoded pol hsel h

/-! ### Decoding and encoding agree -/

/-- Settles O1: the read-back of every form. -/
theorem decodeOfEncode : Obligations.DecodeOfEncode := by
  unfold Obligations.DecodeOfEncode
  exact fun pol _ rest h => decode_encode_append pol h rest

/-- Settles O2: the row of the first byte, then the form it selects. -/
theorem encodeOfDecode : Obligations.EncodeOfDecode := by
  unfold Obligations.EncodeOfDecode
  intro pol bs i rest h
  obtain ⟨hwf, rfl⟩ := wellFormed_and_eq_of_decode h
  obtain ⟨hlen, -, -⟩ := Machine.encodedLength i
  exact ⟨hwf, rfl, by rw [List.length_append, hlen]⟩

/-- Settles O4: each word is decoded. -/
theorem specWordsDecode : Obligations.SpecWordsDecode := by
  unfold Obligations.SpecWordsDecode
  exact ⟨by decide, by decide, by decide, by decide, by decide, by decide⟩

/-! ### Refusals -/

/-- Settles O6: every row's byte is in 50..5F or in the list, so the byte has no row. -/
theorem unlistedFirstByteRefused : Obligations.UnlistedFirstByteRefused := by
  unfold Obligations.UnlistedFirstByteRefused
  intro pol b rest hreg hlist
  refine decode_of_opcode_eq_none pol ?_ rest
  cases hrow : firstByte b with
  | legacyPrefix => rfl
  | other => rfl
  | pushReg r =>
    obtain rfl := eq_opcode_of_firstByte hrow rfl
    exact absurd (by cases r <;> decide) hreg
  | popReg r =>
    obtain rfl := eq_opcode_of_firstByte hrow rfl
    exact absurd (by cases r <;> decide) hreg
  | group g =>
    obtain rfl := eq_opcode_of_firstByte hrow rfl
    exact absurd (by cases g <;> decide) hlist
  | _ =>
    obtain rfl := eq_opcode_of_firstByte hrow rfl
    exact absurd (by decide) hlist

/-- After its ModRM byte a form is refused for one reason: a call whose operand has an index (R129). -/
theorem decodeForm_eq_unsupported {f : ModRMForm} {m : Byte} {bs r bytes : List Byte}
    (h : decodeForm f m bs r = .unsupported bytes) :
    f = .callM32 ∧ ∃ o r2, decodeMem (modField m) (rmField m) r = some (o, r2) ∧ o.index ≠ none ∧
      bytes = bytesRead bs r2 := by
  cases f with
  | movRm32R32 | movR32Rm32 => cases h
  | andR32Imm8 | subR32Imm32 | leaR32M | pushM32 =>
    simp only [decodeForm] at h
    split at h <;> cases h
  | movM32Imm32 =>
    simp only [decodeForm] at h
    split at h
    next => split at h <;> cases h
    next => cases h
  | callM32 =>
    simp only [decodeForm] at h
    split at h
    next o r2 ho =>
      split at h
      next => cases h
      next hindex =>
        cases h
        exact ⟨rfl, o, r2, ho, hindex, rfl⟩
    next => cases h

/-- A selected form is not refused with two bytes: the call that is refused has read its SIB byte. -/
theorem decodeForm_ne_unsupported {f : ModRMForm} {g : Group} {m : Byte} (b : Byte) (r : List Byte)
    (hsel : select g (modField m) (regField m) = some f) : decodeForm f m (b :: m :: r) r ≠ .unsupported [b, m] := by
  intro h
  obtain ⟨rfl, o, r2, ho, hindex, hread⟩ := decodeForm_eq_unsupported h
  obtain ⟨-, hmd, -⟩ := row_of_select hsel
  have hlen := length_of_decodeMem hmd ho
  have htail := tail_pos_of_index hindex
  have hcount := congrArg List.length hread
  simp only [bytesRead, List.length_take, List.length_cons, List.length_nil] at hcount
  omega

/-- A ModRM byte is refused when it selects no form, and then only (R127). -/
theorem decode_opcode_eq_unsupported_iff (pol : EnterLevelPolicy) (g : Group) (m : Byte) (rest : List Byte) :
    decode pol (g.opcode :: m :: rest) = .unsupported [g.opcode, m] ↔ select g (modField m) (regField m) = none := by
  cases hsel : select g (modField m) (regField m) with
  | none => simp [decode, hsel]
  | some f => simpa [decode, hsel] using decodeForm_ne_unsupported g.opcode rest hsel

theorem modField_eq_three_iff (m : Byte) : modField m = 3#2 ↔ m.toNat / 64 = 3 := by
  rw [← toNat_modField, ← BitVec.toNat_inj]; rfl

theorem regField_eq_iff (m : Byte) (n : BitVec 3) : regField m = n ↔ m.toNat / 8 % 8 = n.toNat := by
  rw [← toNat_regField, ← BitVec.toNat_inj]

/-- Settles O7: for each opcode byte, the conditions of its group. -/
theorem modRMRefusedExactly : Obligations.ModRMRefusedExactly := by
  unfold Obligations.ModRMRefusedExactly
  intro pol b m rest hb
  have hopcode : b ∈ [Group.g81, .g83, .g89, .g8B, .g8D, .gC7, .gFF].map Group.opcode := hb
  obtain ⟨g, -, rfl⟩ := List.mem_map.1 hopcode
  rw [decode_opcode_eq_unsupported_iff]
  cases g with
  | g89 | g8B | g8D => simp [select, Group.opcode, modField_eq_three_iff]
  | g81 | g83 | gC7 => simp [select, Group.opcode, modField_eq_three_iff, regField_eq_iff, imp_not_comm]
  | gFF => simp [select_gFF_eq_none_iff, Group.opcode, modField_eq_three_iff, regField_eq_iff]

/-- An 8-bit displacement, when the bytes are there. -/
theorem exists_take8_eq_drop {bs : List Byte} (h : 1 ≤ bs.length) : ∃ d, take8 bs = some (d, bs.drop 1) := by
  obtain ⟨d, r, hd, -⟩ := exists_take8_eq_some h
  exact ⟨d, by rw [hd, take8_eq_some hd]; rfl⟩

/-- A 32-bit displacement, when the bytes are there. -/
theorem exists_take32_eq_drop {bs : List Byte} (h : 4 ≤ bs.length) : ∃ d, take32 bs = some (d, bs.drop 4) := by
  obtain ⟨d, r, hd, -⟩ := exists_take32_eq_some h
  exact ⟨d, by rw [hd, take32_eq_some hd]; rfl⟩

/-- With a SIB byte, the operand takes that byte and `n` displacement bytes, and has the SIB byte's index (R115). -/
theorem exists_decodeMem_sib {md : BitVec 2} (hmd : md ≠ 3#2) (sb : Byte) {rest : List Byte} {n : Nat}
    (hn : n = if md = 1#2 then 1 else if md = 2#2 then 4 else if rmField sb = 5#3 then 4 else 0)
    (hlen : n ≤ rest.length) :
    ∃ o, decodeMem md 4#3 (sb :: rest) = some (o, rest.drop n) ∧ o.index = indexOfBits (regField sb) := by
  obtain rfl | rfl | rfl : md = 0#2 ∨ md = 1#2 ∨ md = 2#2 := by bv_omega
  · by_cases hbase : rmField sb = 5#3
    · obtain rfl : n = 4 := by simpa [hbase] using hn
      obtain ⟨d, hd⟩ := exists_take32_eq_drop hlen
      exact ⟨.sibNoBase (sibOf sb).ss (sibOf sb).index d, by simp [decodeMem, hbase, hd], rfl⟩
    · obtain rfl : n = 0 := by simpa [hbase] using hn
      exact ⟨.sib (sibOf sb), by simp [decodeMem, hbase], rfl⟩
  · obtain rfl : n = 1 := hn
    obtain ⟨d, hd⟩ := exists_take8_eq_drop hlen
    exact ⟨.sibDisp8 (sibOf sb) d, by simp [decodeMem, hd], rfl⟩
  · obtain rfl : n = 4 := hn
    obtain ⟨d, hd⟩ := exists_take32_eq_drop hlen
    exact ⟨.sibDisp32 (sibOf sb) d, by simp [decodeMem, hd], rfl⟩

/-- Index field 100 names no index (R115). -/
theorem indexOfBits_eq_none_iff (n : BitVec 3) : indexOfBits n = none ↔ n = 4#3 := by simp [indexOfBits]

/-- Settles O8: the bytes select a call, whose operand has the SIB byte's index. -/
theorem callWithIndexRefused : Obligations.CallWithIndexRefused := by
  unfold Obligations.CallWithIndexRefused
  intro pol m sib rest n hmd hreg hrm hn hlen
  obtain ⟨o, ho, hindex⟩ := exists_decodeMem_sib hmd sib hn hlen
  have hrow : firstByte 0xFF#8 = .group .gFF := firstByte_opcode .gFF
  have hsel : select .gFF (modField m) 2#3 = some .callM32 := by simp [select, hmd]
  have hnone : o.index = none ↔ regField sib = 4#3 := by rw [hindex, indexOfBits_eq_none_iff]
  have hdecode : decode pol (0xFF#8 :: m :: sib :: rest) =
      if o.index = none then .decoded (.callM32 o) (rest.drop n)
      else .unsupported (bytesRead (0xFF#8 :: m :: sib :: rest) (rest.drop n)) := by
    simp [decode, hrow, hreg, hsel, decodeForm, hrm, ho]
  have hread : bytesRead (0xFF#8 :: m :: sib :: rest) (rest.drop n) = 0xFF#8 :: m :: sib :: rest.take n := by
    have hcount : rest.length + 1 + 1 + 1 - (rest.length - n) = n + 1 + 1 + 1 := by omega
    simp [bytesRead, hcount]
  refine ⟨fun h => ?_, fun h => ⟨o, hnone.2 h, ?_⟩⟩
  · rw [hdecode, if_neg (mt hnone.1 h), hread]
  · rw [hdecode, if_pos (hnone.2 h)]

/-- Settles O9: the policy is read at the level byte, and the meaning never reads it. -/
theorem enterLevelPolicies : Obligations.EnterLevelPolicies := by
  unfold Obligations.EnterLevelPolicies
  have hrow : firstByte 0xC8#8 = .enter := by decide
  refine ⟨fun w0 w1 level rest h => ?_, fun w0 w1 level rest => ?_, fun w level s => rfl⟩
  · simp [decode, hrow, h]
  · simp [decode, hrow]

end Sys2Proof

namespace Sys2Proof.Machine

/-- A byte in bounds at eip begins the window. -/
theorem exists_fetchWindow_eq_cons {s : State} (h : s.mem.inBounds s.eip.toNat 1) :
    ∃ rest, fetchWindow s = s.mem.byte s.eip.toNat :: rest := by
  simp [fetchWindow, maxLength, fetchFrom, Memory.fetchByte_of_inBounds h]

/-- Stage 1 raises what the decoder refuses (R165). -/
theorem fetchDecode_of_unsupported {s : State} {bytes : List Byte}
    (h : decode s.policies.enterLevel (fetchWindow s) = .unsupported bytes) :
    fetchDecode s = .raised (.unsupportedInstruction s.eip bytes) := by
  unfold fetchDecode; rw [h]

/-- Settles O5: the window begins with that byte, which the decoder refuses alone. -/
theorem legacyPrefixRefused : Obligations.LegacyPrefixRefused := by
  unfold Obligations.LegacyPrefixRefused
  intro s b hs hbounds hbyte hb
  obtain ⟨rest, hwindow⟩ := exists_fetchWindow_eq_cons hbounds
  have hrow : firstByte b = .legacyPrefix := if_pos hb
  have hdecode : decode s.policies.enterLevel (fetchWindow s) = .unsupported [b] := by
    rw [hwindow, hbyte, decode_of_opcode_eq_none _ (by rw [hrow]; rfl)]
  exact step_of_raised hs (fetchDecode_of_unsupported hdecode)

end Sys2Proof.Machine
end

section
/-! Stage 1 of the step (40_step_pipeline.md R163 to R166): where the window at eip ends, and what the decoder has read
when it refuses; so what a fetch fault and an Unsupported outcome carry. -/

namespace Sys2Proof

/-- A form with one 32-bit field after its opcode byte is never refused. -/
theorem decodeImm32_ne_unsupported (form : Word → Instr) (r bytes : List Byte) :
    decodeImm32 form r ≠ .unsupported bytes := by
  unfold decodeImm32
  split <;> simp

/-- What the decoder refuses, it has read from the first byte on, and that byte at least (R165). -/
theorem ne_nil_and_prefix_of_decode_eq_unsupported {pol : EnterLevelPolicy} {bs bytes : List Byte}
    (h : decode pol bs = .unsupported bytes) : bytes ≠ [] ∧ bytes <+: bs := by
  cases bs with
  | nil => simp [decode] at h
  | cons b0 r =>
    cases hrow : firstByte b0 with
    | legacyPrefix | other =>
      obtain rfl : [b0] = bytes := by simpa [decode, hrow] using h
      exact ⟨by simp, r, rfl⟩
    | pushReg n | popReg n | ret => simp [decode, hrow] at h
    | pushImm8 =>
      simp only [decode, hrow] at h
      split at h <;> cases h
    | pushImm32 | callRel32 | jmpRel32 | movEaxMoffs | movMoffsEax =>
      simp only [decode, hrow] at h
      exact absurd h (decodeImm32_ne_unsupported _ _ _)
    | enter =>
      simp only [decode, hrow] at h
      split at h
      next b1 b2 b3 r2 =>
        split at h
        next =>
          cases h
          exact ⟨by simp, r2, rfl⟩
        next => cases h
      next => cases h
    | group g =>
      cases r with
      | nil => simp [decode, hrow] at h
      | cons m r =>
        simp only [decode, hrow] at h
        split at h
        next =>
          cases h
          exact ⟨by simp, r, rfl⟩
        next f hsel =>
          obtain ⟨rfl, o, r2, ho, -, rfl⟩ := decodeForm_eq_unsupported h
          obtain ⟨-, hmd, -⟩ := row_of_select hsel
          have hlen := length_of_decodeMem hmd ho
          refine ⟨List.ne_nil_of_length_pos ?_, List.take_prefix _ _⟩
          simp only [bytesRead, List.length_take, List.length_cons]
          omega

end Sys2Proof

namespace Sys2Proof.Machine

/-! ### Where the window ends -/

/-- The addresses of a fetch follow one another modulo 2^32 (R41). -/
theorem succ_add_ofNat (a : Word) (k : Nat) : a + 1#32 + BitVec.ofNat 32 k = a + BitVec.ofNat 32 (k + 1) := by
  rw [BitVec.add_assoc, ← BitVec.ofNat_add, Nat.add_comm]

/-- A fetch out of bounds answers nothing (R75). -/
theorem Memory.fetchByte_of_not_inBounds {m : Memory} {a : Word} (h : ¬ m.inBounds a.toNat 1) :
    m.fetchByte a = none := if_neg h

/-- Every byte a fetch gave is in bounds. -/
theorem inBounds_of_lt_length_fetchFrom {m : Memory} {n : Nat} : ∀ {a : Word} {k : Nat},
    k < (fetchFrom m a n).length → m.inBounds (a + BitVec.ofNat 32 k).toNat 1 := by
  induction n with
  | zero => exact fun hk => absurd hk (Nat.not_lt_zero _)
  | succ n ih =>
    intro a k hk
    by_cases hb : m.inBounds a.toNat 1
    · cases k with
      | zero => simpa using hb
      | succ k =>
        rw [fetchFrom, Memory.fetchByte_of_inBounds hb] at hk
        exact succ_add_ofNat a k ▸ ih (Nat.lt_of_succ_lt_succ hk)
    · simp [fetchFrom, Memory.fetchByte_of_not_inBounds hb] at hk

/-- A fetch that gave fewer bytes than asked for stopped before one that is out of bounds (R75). -/
theorem not_inBounds_of_length_fetchFrom_lt {m : Memory} {n : Nat} : ∀ {a : Word},
    (fetchFrom m a n).length < n → ¬ m.inBounds (a + BitVec.ofNat 32 (fetchFrom m a n).length).toNat 1 := by
  induction n with
  | zero => exact fun h => absurd h (Nat.not_lt_zero _)
  | succ n ih =>
    intro a h
    by_cases hb : m.inBounds a.toNat 1
    · rw [fetchFrom, Memory.fetchByte_of_inBounds hb] at h ⊢
      rw [List.length_cons, ← succ_add_ofNat]
      exact ih (Nat.lt_of_succ_lt_succ h)
    · simpa [fetchFrom, Memory.fetchByte_of_not_inBounds hb] using hb

/-- Where the decoder needs a byte more, the window is shorter than the longest form (R9). -/
theorem length_fetchWindow_lt_of_short {s : State} (h : decode s.policies.enterLevel (fetchWindow s) = .short) :
    (fetchWindow s).length < maxLength :=
  Nat.lt_of_not_le fun hlen => elevenBytesSettleEveryVerdict _ _ hlen h

/-! ### The step on a decoded instruction -/

/-- Settles O10: stage 1 answers the instruction, and stages 2 and 3 run it. -/
theorem stepRunsTheDecodedInstruction : Obligations.StepRunsTheDecodedInstruction := by
  unfold Obligations.StepRunsTheDecodedInstruction
  intro s i rest hs hdecode
  exact step_of_decoded hs (fetchDecode_of_decoded hdecode)

end Sys2Proof.Machine
end

section
/-! How a step ends (40_step_pipeline.md R161 to R171): what an instruction can raise and what it does to `status`, then
everything a fault of a step can be. -/

namespace Sys2Proof.Machine

/-! ### What an instruction raises -/

/-- A raise of stage 3: neither of the two outcomes of stage 1, an unsupported instruction and a fetch fault. -/
def Raise.OfExec : Raise → Prop
  | .unsupportedInstruction _ _ => False
  | .memoryFault _ _ k => k ≠ .fetch
  | .contractViolation _ => True
  | .hostFailure _ => True

/-- A primitive or a rule of stage 3 on a machine of `status` `st`: it leaves `status` alone, and raises what stage 3
can. -/
def Res.OfExec {α : Type} (st : Status) : Res α → Prop
  | .done _ t => t.status = st
  | .raised r t => r.OfExec ∧ t.status = st

theorem Res.OfExec.andThen {α β : Type} {st : Status} {x : Res α} {f : α → State → Res β} (hx : x.OfExec st)
    (hf : ∀ v t, t.status = st → (f v t).OfExec st) : (x.andThen f).OfExec st := by
  cases x with
  | done v t => exact hf v t hx
  | raised r t => exact hx

section
variable {s : State} {st : Status}

theorem resolve_ofExec (p : MemParts) (h : s.status = st) : (resolve p s).OfExec st := by
  rcases resolve_cases p s with ⟨a, -, e⟩ | ⟨k, -, e⟩ <;> rw [e]
  · exact h
  · exact ⟨trivial, h⟩

theorem memRead_ofExec (a : Word) (h : s.status = st) : (memRead a s).OfExec st := by
  rcases memRead_cases a s with ⟨-, e⟩ | ⟨-, e⟩ <;> rw [e]
  · exact h
  · exact ⟨nofun, h⟩

theorem memWrite_ofExec (a v : Word) (h : s.status = st) : (memWrite a v s).OfExec st := by
  rcases memWrite_cases a v s with ⟨-, e⟩ | ⟨-, e⟩ <;> rw [e]
  · exact h
  · exact ⟨nofun, h⟩

/-- A push is a write with esp lowered first (R190). -/
theorem push_ofExec (v : Word) (h : s.status = st) : (push v s).OfExec st := memWrite_ofExec _ v h

theorem pop_ofExec (h : s.status = st) : (pop s).OfExec st :=
  (memRead_ofExec _ h).andThen fun _ _ ht => ht

theorem callTo_ofExec (target : Word) (h : s.status = st) : (callTo target s).OfExec st :=
  (push_ofExec s.eip h).andThen fun _ _ ht => ht

theorem invoke_ofExec (sem : HandlerSem) (id : HandlerId) (h : s.status = st) : (invoke sem id s).OfExec st := by
  rcases invoke_cases sem id s with ⟨l, -, e⟩ | ⟨l, -, e⟩ <;> rw [e]
  · exact h
  · exact ⟨trivial, h⟩

theorem callThrough_ofExec (sem : HandlerSem) (slot target : Word) (h : s.status = st) :
    (callThrough sem slot target s).OfExec st := by
  rcases callThrough_cases sem slot target s with ⟨-, e⟩ | ⟨id, -, e⟩ | ⟨-, e⟩ <;> rw [e]
  · exact callTo_ofExec target h
  · exact invoke_ofExec sem id h
  · exact h

end

/-- Every instruction is a rule of stage 3 that is then finished (R167, R168): no instruction is refused. -/
theorem exec_eq_finish (i : Instr) (s : State) : ∃ x : Res Unit, exec i s = x.finish ∧ x.OfExec s.status := by
  cases i with
  | enter frame level => exact ⟨_, rfl, (push_ofExec _ rfl).andThen fun _ _ h => h⟩
  | callRel32 rel => exact ⟨_, rfl, callTo_ofExec _ rfl⟩
  | callM32 m =>
    exact ⟨_, rfl, (resolve_ofExec _ rfl).andThen fun slot _ h1 => (memRead_ofExec slot h1).andThen fun target _ h2 =>
      callThrough_ofExec Config.handlerSem slot target h2⟩
  | ret => exact ⟨_, rfl, (pop_ofExec rfl).andThen fun _ _ h => h⟩
  | pushImm8 imm => exact ⟨_, rfl, push_ofExec _ rfl⟩
  | pushImm32 imm => exact ⟨_, rfl, push_ofExec imm rfl⟩
  | pushR32 r => exact ⟨_, rfl, push_ofExec _ rfl⟩
  | pushM32 m =>
    exact ⟨_, rfl, (resolve_ofExec _ rfl).andThen fun a _ h1 => (memRead_ofExec a h1).andThen fun v _ h2 =>
      push_ofExec v h2⟩
  | popR32 r => exact ⟨_, rfl, (pop_ofExec rfl).andThen fun _ _ h => h⟩
  | movM32Imm32 m imm => exact ⟨_, rfl, (resolve_ofExec _ rfl).andThen fun a _ h => memWrite_ofExec a imm h⟩
  | movMoffs32Eax moffs => exact ⟨_, rfl, (resolve_ofExec _ rfl).andThen fun a _ h => memWrite_ofExec a _ h⟩
  | movEaxMoffs32 moffs =>
    exact ⟨_, rfl, (resolve_ofExec _ rfl).andThen fun a _ h1 => (memRead_ofExec a h1).andThen fun _ _ h2 => h2⟩
  | jmpRel32 rel => exact ⟨.done () _, rfl, rfl⟩
  | movRm32R32 dst src | movR32Rm32 dst src => exact ⟨.done () _, rfl, rfl⟩
  | andR32Imm8 r imm | subR32Imm32 r imm => exact ⟨.done () _, rfl, rfl⟩
  | leaR32M dst m => exact ⟨_, rfl, (resolve_ofExec _ rfl).andThen fun _ _ h => h⟩

/-! ### What a fault of a step is -/

/-- A halted machine raises its outcome again and is left as it is (R162). -/
theorem step_eq_fault_of_halted {s : State} {q : HaltReason} (h : s.status = .halted q) :
    step s = .fault (q.raise.fault s) := by
  have hleft : s.setStatus (.halted q) = s := by rw [← h]; rfl
  rw [step_of_halted h, takeRaise, HaltReason.raiseLeft_self, hleft]

/-- Everything stage 1 can raise (R164, R165). -/
theorem fetchDecode_raised_cases {s : State} {r : Raise} (h : fetchDecode s = .raised r) :
    (∃ bytes, decode s.policies.enterLevel (fetchWindow s) = .unsupported bytes ∧
      r = .unsupportedInstruction s.eip bytes) ∨
      (decode s.policies.enterLevel (fetchWindow s) = .short ∧
        r = .memoryFault (s.eip + BitVec.ofNat 32 (fetchWindow s).length) .byte .fetch) := by
  rcases fetchDecode_cases s with ⟨i, rest, -, e⟩ | ⟨bytes, hdecode, e⟩ | ⟨hdecode, e⟩ <;> rw [h] at e
  · cases e
  · exact .inl ⟨bytes, hdecode, FetchResult.raised.inj e⟩
  · exact .inr ⟨hdecode, FetchResult.raised.inj e⟩

/-- What stage 1 raises leaves the machine as it is (R164, R165). -/
theorem raiseLeft_of_fetchDecode {s t : State} {r : Raise} (h : fetchDecode s = .raised r) : raiseLeft r t = t := by
  rcases fetchDecode_raised_cases h with ⟨bytes, -, rfl⟩ | ⟨-, rfl⟩ <;> rfl

/-- Everything a fault of a step can be: a halted machine's outcome again (R162), a raise of stage 1 on the machine as
it was (R164, R165), or a raise of stage 3 on a running machine (R168 to R170). -/
theorem step_fault_cases {s : State} {f : Fault} (h : step s = .fault f) :
    (∃ q, s.status = .halted q ∧ f = q.raise.fault s) ∨
      (∃ r, s.status = .running ∧ fetchDecode s = .raised r ∧ f = r.fault s) ∨
      (∃ (r : Raise) (t : State), r.OfExec ∧ t.status = .running ∧ f = r.fault (raiseLeft r t)) := by
  rcases step_cases s with ⟨q, hs, -⟩ | ⟨r, hs, hr, e⟩ | ⟨d, hs, -, e⟩
  · rw [step_eq_fault_of_halted hs] at h
    exact .inl ⟨q, hs, (Host.Outcome.fault.inj h).symm⟩
  · rw [e, takeRaise, raiseLeft_of_fetchDecode hr] at h
    exact .inr (.inl ⟨r, hs, hr, (Host.Outcome.fault.inj h).symm⟩)
  · obtain ⟨x, hx, hexec⟩ := exec_eq_finish d.instr (s.setEip d.nextIp)
    rw [e, hx] at h
    obtain ⟨r, t, rfl, rfl⟩ := Res.finish_eq_fault.1 h
    obtain ⟨hr, ht⟩ := hexec
    exact .inr (.inr ⟨r, t, hr, ht.trans hs, rfl⟩)

/-- A memory fault of a fetch is stage 1's, where the decoder needs a byte past the window (R164). -/
theorem short_of_step_eq_fetchFault {s t : State} {a : Word} {w : AccessWidth}
    (h : step s = .fault (.memoryFault a w .fetch t)) :
    decode s.policies.enterLevel (fetchWindow s) = .short ∧
      a = s.eip + BitVec.ofNat 32 (fetchWindow s).length ∧ w = .byte ∧ t = s := by
  rcases step_fault_cases h with ⟨q, -, e⟩ | ⟨r, -, hr, e⟩ | ⟨r, u, hr, -, e⟩
  · cases q <;> cases e
  · rcases fetchDecode_raised_cases hr with ⟨bytes, -, rfl⟩ | ⟨hshort, rfl⟩ <;> cases e
    exact ⟨hshort, rfl, rfl, rfl⟩
  · cases r <;> cases e
    exact absurd rfl hr

/-- An Unsupported outcome is stage 1's, where the decoder refuses the window (R165). -/
theorem unsupported_of_step_eq_fault {s t : State} {start : Word} {bytes : List Byte}
    (h : step s = .fault (.unsupportedInstruction start bytes t)) :
    decode s.policies.enterLevel (fetchWindow s) = .unsupported bytes ∧ start = s.eip ∧ t = s := by
  rcases step_fault_cases h with ⟨q, -, e⟩ | ⟨r, -, hr, e⟩ | ⟨r, u, hr, -, e⟩
  · cases q <;> cases e
  · rcases fetchDecode_raised_cases hr with ⟨bytes', hdecode, rfl⟩ | ⟨-, rfl⟩ <;> cases e
    exact ⟨hdecode, rfl, rfl⟩
  · cases r <;> cases e
    exact hr.elim

/-- Settles O12: the window ends at the byte that faults, and holds the bytes before it. -/
theorem fetchFaultIsPrecise : Obligations.FetchFaultIsPrecise := by
  unfold Obligations.FetchFaultIsPrecise
  intro s t a w h
  obtain ⟨hshort, rfl, rfl, rfl⟩ := short_of_step_eq_fetchFault h
  have hlen := length_fetchWindow_lt_of_short hshort
  exact ⟨rfl, rfl, not_inBounds_of_length_fetchFrom_lt hlen, (fetchWindow t).length, hlen, rfl,
    fun _ hk => inBounds_of_lt_length_fetchFrom hk⟩

/-- Settles O14: the bytes are those the decoder read of the window. -/
theorem unsupportedIsPrecise : Obligations.UnsupportedIsPrecise := by
  unfold Obligations.UnsupportedIsPrecise
  intro s t start bytes h
  obtain ⟨hdecode, hstart, ht⟩ := unsupported_of_step_eq_fault h
  exact ⟨hstart, ht, ne_nil_and_prefix_of_decode_eq_unsupported hdecode⟩

/-! ### `status` after a fault -/

@[simp] theorem HaltReason.raise_halts (q : HaltReason) : q.raise.halts = true := by cases q <;> rfl

/-- A fault is its outcome and the machine it leaves. -/
@[simp] theorem Fault.raise_fault_left (f : Fault) : f.raise.fault f.left = f := by cases f <;> rfl

/-- A raise of a running machine either leaves it running, or halts it with the reason that is raised (R169 to R171). -/
theorem raiseLeft_status_cases (r : Raise) {s : State} (h : s.status = .running) :
    (r.halts = false ∧ (raiseLeft r s).status = .running) ∨
      ∃ q : HaltReason, r = q.raise ∧ (raiseLeft r s).status = .halted q := by
  cases r with
  | unsupportedInstruction start bytes => exact .inl ⟨rfl, h⟩
  | memoryFault a w k => exact .inl ⟨rfl, h⟩
  | contractViolation k => exact .inr ⟨.contractViolation k, rfl, rfl⟩
  | hostFailure id => exact .inr ⟨.hostFailure id, rfl, rfl⟩

/-- A step's fault either is no halting one and leaves the machine running, or leaves it halted with its own outcome as
the reason. -/
theorem status_of_step_eq_fault {s : State} {f : Fault} (h : step s = .fault f) :
    (f.raise.halts = false ∧ f.left.status = .running) ∨
      ∃ q : HaltReason, f.raise = q.raise ∧ f.left.status = .halted q := by
  rcases step_fault_cases h with ⟨q, hs, rfl⟩ | ⟨r, hs, hr, rfl⟩ | ⟨r, t, -, ht, rfl⟩
  · exact .inr ⟨q, by simp, by simpa using hs⟩
  · simpa [raiseLeft_of_fetchDecode hr] using raiseLeft_status_cases r hs
  · simpa using raiseLeft_status_cases r ht

/-- Settles O15: a halting fault leaves the machine halted with the outcome that its next step returns. -/
theorem haltedStepRepeatsItsOutcome : Obligations.HaltedStepRepeatsItsOutcome := by
  unfold Obligations.HaltedStepRepeatsItsOutcome
  refine ⟨fun s k hs => step_eq_fault_of_halted hs, fun s id hs => step_eq_fault_of_halted hs, fun s f h hhalts => ?_⟩
  rcases status_of_step_eq_fault h with ⟨hno, -⟩ | ⟨q, hq, hstatus⟩
  · simp [hno] at hhalts
  · rw [step_eq_fault_of_halted hstatus, ← hq, Fault.raise_fault_left]

/-- Settles O16: the two kinds of fault, by the `status` they leave. -/
theorem onlyHaltingOutcomesHalt : Obligations.OnlyHaltingOutcomesHalt := by
  unfold Obligations.OnlyHaltingOutcomesHalt
  intro s f h
  rcases status_of_step_eq_fault h with ⟨hno, hstatus⟩ | ⟨q, hq, hstatus⟩
  · simp [hno, hstatus]
  · simp [hq, hstatus]

/-! ### What a step reports -/

/-- No step is refused: stage 1 raises, and every instruction has a meaning. -/
theorem step_ne_refused (s : State) (r : Refusal) : step s ≠ .refused r := by
  rcases step_cases s with ⟨q, -, e⟩ | ⟨r', -, -, e⟩ | ⟨d, -, -, e⟩ <;> rw [e]
  · exact nofun
  · exact nofun
  · obtain ⟨x, hx, -⟩ := exec_eq_finish d.instr (s.setEip d.nextIp)
    exact hx ▸ x.finish_ne_refused r

theorem Raise.code_le (r : Raise) : r.code ≤ 4 := by cases r <;> simp [Raise.code]

/-- Settles O17: a step that completes reports code 0, and a fault the code of its outcome. -/
theorem stepReturnsOneOutcome : Obligations.StepReturnsOneOutcome := by
  unfold Obligations.StepReturnsOneOutcome
  refine fun s => ⟨step_ne_refused s, ?_⟩
  unfold stepReport
  cases h : step s with
  | next t => exact ⟨.ok, t, rfl, Nat.zero_le 4⟩
  | fault f => exact ⟨.raised f.raise, f.left, rfl, f.raise.code_le⟩
  | refused r => exact absurd h (step_ne_refused s r)

end Sys2Proof.Machine
end

section
/-! Runs until `STOP` (40_step_pipeline.md R177): a run that ends as stopped, and the same steps as a run of the core. -/

namespace Sys2Proof.Safety

open Sys2Proof.Machine

/-- A run stops where `STOP` holds, or after a step that returned Ok. -/
theorem runUntil_stopped_cases {stop : State → Bool} {n : Nat} {s t : State} (h : runUntil stop n s = .stopped t) :
    (stop s = true ∧ t = s) ∨
      (stop s = false ∧ ∃ m u, n = m + 1 ∧ step s = .next u ∧ runUntil stop m u = .stopped t) := by
  cases hstop : stop s with
  | true =>
    have hrun : runUntil stop n s = .stopped s := by cases n <;> simp [runUntil, hstop]
    exact .inl ⟨rfl, RunEnd.stopped.inj (h.symm.trans hrun)⟩
  | false =>
    cases n with
    | zero => simp [runUntil, hstop] at h
    | succ m =>
      cases hstep : step s with
      | next u => exact .inr ⟨rfl, m, u, rfl, rfl, by simpa [runUntil, hstop, hstep] using h⟩
      | fault f => simp [runUntil, hstop, hstep] at h
      | refused r => simp [runUntil, hstop, hstep] at h

/-- A run of the core goes on after a step that returned Ok. -/
theorem core_run_succ_of_next {s u : State} (h : step s = .next u) (k : Nat) : core.run (k + 1) s = core.run k u := by
  have hcore : core.step s = .next u := h
  simp only [Host.Core.run, hcore]

/-- Settles O60: by induction on the steps given, each of which returned Ok from a machine on which `STOP` did not
hold. -/
theorem successfulRunIsAllOk : Obligations.SuccessfulRunIsAllOk := by
  unfold Obligations.SuccessfulRunIsAllOk
  intro stop n
  induction n using Nat.strong_induction_on with
  | _ n ih =>
    intro s t h
    rcases runUntil_stopped_cases h with ⟨hstop, rfl⟩ | ⟨hno, m, u, rfl, hstep, hrest⟩
    · exact ⟨hstop, 0, Nat.zero_le n, rfl, fun j hj => absurd hj (Nat.not_lt_zero j)⟩
    · obtain ⟨hstop, k, hk, hrun, hbefore⟩ := ih m (Nat.lt_succ_self m) u t hrest
      refine ⟨hstop, k + 1, Nat.succ_le_succ hk, (core_run_succ_of_next hstep k).trans hrun, fun j hj => ?_⟩
      cases j with
      | zero => exact ⟨s, rfl, hno⟩
      | succ j =>
        rw [core_run_succ_of_next hstep]
        exact hbefore j (Nat.lt_of_succ_lt_succ hj)

end Sys2Proof.Safety
end

section
/-! The host's own accesses to memory and the stack (40_step_pipeline.md R174): out of bounds, each fails as its
primitive does. -/

namespace Sys2Proof.Machine

open Sys2Proof.Safety

/-- `MemRead` out of bounds raises, and changes nothing (R73). -/
theorem memRead_of_not_inBounds {a : Word} {s : State} (h : ¬ s.mem.inBounds a.toNat 4) :
    memRead a s = .raised (.memoryFault a .dword .read) s := if_neg h

/-- `MemWrite` out of bounds raises, and changes nothing (R74). -/
theorem memWrite_of_not_inBounds {a : Word} (v : Word) {s : State} (h : ¬ s.mem.inBounds a.toNat 4) :
    memWrite a v s = .raised (.memoryFault a .dword .write) s := if_neg h

/-- `Push` without room raises with esp lowered (R190). -/
theorem push_of_not_canPush (v : Word) {s : State} (h : ¬ CanPush s) :
    push v s = .raised (.memoryFault (s.reg .esp - 4#32) .dword .write) (s.setReg .esp (s.reg .esp - 4#32)) :=
  memWrite_of_not_inBounds v h

/-- `Pop` out of bounds raises, and changes nothing (R191). -/
theorem pop_of_not_inBounds {s : State} (h : ¬ s.mem.inBounds (s.reg .esp).toNat 4) :
    pop s = .raised (.memoryFault (s.reg .esp) .dword .read) s := by
  rw [pop, memRead_of_not_inBounds h, Res.andThen_raised]

/-- A primitive's memory fault is the host's reply, with the machine as the primitive left it (R174). -/
theorem reply_memoryFault {α : Type} (a : Word) (w : AccessWidth) (k : AccessKind) (s : State) :
    (Res.raised (.memoryFault a w k) s : Res α).reply = .failed (.memoryFault a w k) s := rfl

/-- Settles O57: each access is the reply of its primitive. -/
theorem hostAccessFaults : Obligations.HostAccessFaults := by
  unfold Obligations.HostAccessFaults
  intro a v s
  refine ⟨fun h => ⟨?_, ?_⟩, fun h => ⟨s.setReg .esp (s.reg .esp - 4#32), ?_, onlyReg_setReg s .esp _⟩, fun h => ?_⟩
  · rw [hostRead32, memRead_of_not_inBounds h, reply_memoryFault]
  · rw [hostWrite32, memWrite_of_not_inBounds v h, reply_memoryFault]
  · rw [hostPush, push_of_not_canPush v h, reply_memoryFault]
  · rw [hostPop, pop_of_not_inBounds h, reply_memoryFault]

end Sys2Proof.Machine
end

section
/-! The stack (41_stack.md R190 to R198): what a push and a pop that complete leave, and what is read back; how a rule
that pushes ends; then each instruction. -/

namespace Sys2Proof.Machine

open Sys2Proof.Safety

/-! ### The word at an address -/

/-- The four bytes at an address fix the word read there (R73). -/
theorem read32_eq_of_readsAs {m : Memory} {a v : Word} (h : ReadsAs m a v) : m.read32 a.toNat = v := by
  have h0 : m.byte a.toNat = byteOf v 0 := h 0 (by decide)
  have h1 := h 1 (by decide)
  have h2 := h 2 (by decide)
  have h3 := h 3 (by decide)
  rw [Memory.read32, h0, h1, h2, h3, leWord_byteOf]

theorem memRead_of_readsAs {a v : Word} {s : State} (hb : s.mem.inBounds a.toNat 4) (h : ReadsAs s.mem a v) :
    memRead a s = .done v s :=
  memRead_eq_done.2 ⟨hb, (read32_eq_of_readsAs h).symm, rfl⟩

theorem pop_of_readsAs {v : Word} {s : State} (hb : s.mem.inBounds (s.reg .esp).toNat 4)
    (h : ReadsAs s.mem (s.reg .esp) v) : pop s = .done v (s.setReg .esp (s.reg .esp + 4#32)) :=
  pop_eq_done.2 ⟨hb, (read32_eq_of_readsAs h).symm, rfl⟩

/-! ### After a push -/

/-- A push with room below esp completes (R190). -/
theorem push_of_canPush (v : Word) {s : State} (h : CanPush s) : push v s = .done () (pushed v s) :=
  push_eq_done.2 ⟨h, rfl⟩

@[simp] theorem pushed_reg_esp (v : Word) (s : State) : (pushed v s).reg .esp = s.reg .esp - 4#32 :=
  s.setReg_reg_self .esp _

theorem pushed_storedAt (v : Word) (s : State) : StoredAt s.mem (pushed v s).mem (s.reg .esp - 4#32) v :=
  storedAt_write32 s.mem _ v

/-- The state a completed push leaves differs from the one before as R190 says. -/
theorem pushed_spec (v : Word) (s : State) : Pushed s (pushed v s) v :=
  have hframe := Frame.pushed (List.mem_singleton_self _) v s
  ⟨pushed_reg_esp v s, hframe.regs, hframe.eip, pushed_storedAt v s, hframe.rest⟩

/-- The pushed word is in bounds: a push does not change the memory's size. -/
theorem pushed_inBounds (v : Word) {s : State} (h : CanPush s) :
    (pushed v s).mem.inBounds (s.reg .esp - 4#32).toNat 4 := h

/-- The pushed word stands at its address. -/
theorem pushed_readsAs (v : Word) (s : State) : ReadsAs (pushed v s).mem (s.reg .esp - 4#32) v := by
  obtain ⟨-, hbytes, -⟩ := pushed_storedAt v s
  exact hbytes

/-- A pop right after a push returns the word pushed, and raises esp to what it was (R192). -/
theorem pop_pushed (v : Word) {s : State} (h : CanPush s) :
    pop (pushed v s) = .done v ((pushed v s).setReg .esp (s.reg .esp)) := by
  have hesp := pushed_reg_esp v s
  have hpop := pop_of_readsAs (hesp ▸ pushed_inBounds v h) (hesp ▸ pushed_readsAs v s)
  rw [hpop, hesp, BitVec.sub_add_cancel]

/-- Settles O32: the word read back is the one at the lowered esp. -/
theorem stackLaws : Obligations.StackLaws := by
  unfold Obligations.StackLaws
  refine ⟨fun v s hc => ⟨pushed v s, push_of_canPush v hc, pushed_spec v s, ?_, ?_⟩, fun v s t h => ?_⟩
  · exact memRead_of_readsAs (pushed_inBounds v hc) (pushed_readsAs v s)
  · exact ⟨_, pop_pushed v hc, State.setReg_reg_self _ _ _⟩
  · obtain ⟨-, -, rfl⟩ := pop_eq_done.1 h
    exact onlyReg_setReg s .esp _

/-! ### A rule that pushes -/

/-- A rule that ends by the write fault of a push leaves esp lowered and nothing else changed (R168, R190). -/
theorem pushFaults_of_raised {x : Res Unit} {s : State}
    (h : x = .raised (.memoryFault (s.reg .esp - 4#32) .dword .write) (s.setReg .esp (s.reg .esp - 4#32))) :
    PushFaults s x.finish := by
  subst h
  exact ⟨s.setReg .esp (s.reg .esp - 4#32), rfl, onlyReg_setReg s .esp _⟩

/-- Without room, a rule that starts with a push does not go on after it (R14). -/
theorem pushFaults_of_push_andThen (v : Word) {s : State} (h : ¬ CanPush s) (f : Unit → State → Res Unit) :
    PushFaults s ((push v s).andThen f).finish :=
  pushFaults_of_raised (by rw [push_of_not_canPush v h, Res.andThen_raised])

theorem pushFaults_of_push (v : Word) {s : State} (h : ¬ CanPush s) : PushFaults s (push v s).finish :=
  pushFaults_of_raised (push_of_not_canPush v h)

/-- A rule that is a push completes with the word pushed. -/
theorem exists_next_of_push (v : Word) {s : State} (h : CanPush s) :
    ∃ t, (push v s).finish = .next t ∧ Pushed s t v :=
  ⟨pushed v s, by rw [push_of_canPush v h, Res.finish_done], pushed_spec v s⟩

/-! ### push imm32, push r32 and push imm8 -/

/-- Settles O35: the rule is one push, with room or without. -/
theorem pushImm32Result : Obligations.PushImm32Result := by
  unfold Obligations.PushImm32Result
  exact fun imm s => ⟨rfl, exists_next_of_push imm, pushFaults_of_push imm⟩

/-- `50+rd`: the opcode's five bits and the register's three are the sum (R121). -/
theorem pushReg_byte (r : Reg32) : 0b01010#5 ++ r.toBits = BitVec.ofNat 8 (0x50 + r.toBits.toNat) := by
  cases r <;> rfl

/-- Settles O36: the register is read in the state before esp moves. -/
theorem pushR32Result : Obligations.PushR32Result := by
  unfold Obligations.PushR32Result
  intro r s
  exact ⟨by rw [encode, pushReg_byte], exists_next_of_push (s.reg r), pushFaults_of_push (s.reg r)⟩

theorem toInt_extend8_sign (b : Byte) : (extend8 .sign b).toInt = b.toInt :=
  BitVec.toInt_signExtend_of_le (by decide)

theorem toNat_extend8_zero (b : Byte) : (extend8 .zero b).toNat = b.toNat :=
  BitVec.toNat_setWidth_of_le (by decide)

/-- Settles O34: the word pushed is the immediate's extension, which each value of the policy fixes. -/
theorem pushImm8Result : Obligations.PushImm8Result := by
  unfold Obligations.PushImm8Result
  refine fun imm s => ⟨rfl, fun hc => ?_, pushFaults_of_push _⟩
  obtain ⟨t, hexec, hpushed⟩ := exists_next_of_push (extend8 s.policies.pushImm8Ext imm) hc
  exact ⟨t, _, hexec, hpushed, fun hsign => hsign ▸ toInt_extend8_sign imm, fun hzero => hzero ▸ toNat_extend8_zero imm⟩

/-! ### push [mem] -/

/-- With mod = 11 the byte `FF` selects no form (R127). -/
theorem decode_FF_of_register (pol : EnterLevelPolicy) {b : Byte} (h : b.toNat / 64 = 3) (rest : List Byte) :
    decode pol (0xFF#8 :: b :: rest) = .unsupported [0xFF#8, b] := by
  have hmd : modField b = 3#2 := (modField_eq_three_iff b).2 h
  have hsel : select .gFF (modField b) (regField b) = none := by rw [select, if_pos hmd]
  exact (decode_opcode_eq_unsupported_iff pol .gFF b rest).2 hsel

section
variable {p : MemParts} {s : State} {a : Word}

/-- A rule that starts by reading its memory operand ends by the read's fault when the operand is out of bounds, with
nothing changed (R73, R168). -/
theorem readFault_of_effectiveAddress (hea : effectiveAddress p s = .ok a) (hb : ¬ s.mem.inBounds a.toNat 4)
    (f : Word → State → Res Unit) :
    ((resolve p s).andThen fun a s1 => (memRead a s1).andThen f).finish = .fault (.memoryFault a .dword .read s) := by
  rw [resolve_eq_done.2 ⟨hea, rfl⟩, Res.andThen_done, memRead_of_not_inBounds hb, Res.andThen_raised,
    Res.finish_raised]
  rfl

/-- A rule that starts by reading its memory operand goes on with the word there (R73). -/
theorem readOperand_of_effectiveAddress (hea : effectiveAddress p s = .ok a) (hb : s.mem.inBounds a.toNat 4)
    (f : Word → State → Res Unit) :
    ((resolve p s).andThen fun a s1 => (memRead a s1).andThen f) = f (s.mem.read32 a.toNat) s := by
  rw [resolve_eq_done.2 ⟨hea, rfl⟩, Res.andThen_done, memRead_eq_done.2 ⟨hb, rfl, rfl⟩, Res.andThen_done]

end

/-- With its operand in bounds, push [mem] is a push of the word there (R197). -/
theorem exec_pushM32_of_inBounds {m : MemOperand} {s : State} {a : Word}
    (hea : effectiveAddress (memParts m) s = .ok a) (hb : s.mem.inBounds a.toNat 4) :
    exec (.pushM32 m) s = (push (s.mem.read32 a.toNat) s).finish := by
  rw [exec, execPushM32, readOperand_of_effectiveAddress hea hb]

/-- Settles O37: the address, the read and the push, each with its fault, in the order of the rule. -/
theorem pushM32Result : Obligations.PushM32Result := by
  unfold Obligations.PushM32Result
  refine fun m s => ⟨rfl, fun pol b rest hb => decode_FF_of_register pol (by omega) rest,
    fun k hea => violationHalts_of_effectiveAddress hea _, fun a hea => ⟨fun hb => ?_, fun hb hc => ?_, fun hb hc => ?_⟩⟩
  · exact readFault_of_effectiveAddress hea hb _
  · obtain ⟨t, hexec, hpushed⟩ := exists_next_of_push (s.mem.read32 a.toNat) hc
    exact ⟨t, _, (exec_pushM32_of_inBounds hea hb).trans hexec, readsAs_read32 s.mem a, hpushed⟩
  · rw [exec_pushM32_of_inBounds hea hb]
    exact pushFaults_of_push _ hc

/-! ### enter -/

/-- The state after an `enter` that completes (R193). -/
def entered (frame : Half) (s : State) : State :=
  ((pushed (s.reg .ebp) s).setReg .ebp (s.reg .esp - 4#32)).setReg .esp (s.reg .esp - 4#32 - zext16 frame)

theorem entered_reg_esp (frame : Half) (s : State) :
    (entered frame s).reg .esp = s.reg .esp - 4#32 - BitVec.ofNat 32 frame.toNat := by
  rw [entered, State.setReg_reg_self, zext16, BitVec.ofNat_toNat]

theorem entered_reg_ebp (frame : Half) (s : State) : (entered frame s).reg .ebp = s.reg .esp - 4#32 := by
  rw [entered, State.setReg_reg_of_ne _ _ (by decide), State.setReg_reg_self]

/-- The frame of `enter`: the push's, and ebp. -/
theorem entered_frame (frame : Half) (s : State) :
    Frame [.esp, .ebp] (some (s.reg .esp - 4#32)) s (entered frame s) :=
  ((Frame.pushed (by decide) (s.reg .ebp) s).setReg (by decide) _).setReg (by decide) _

/-- With room below esp, `enter` completes whatever its level. -/
theorem exec_enter_of_canPush (frame : Half) (level : Byte) {s : State} (h : CanPush s) :
    exec (.enter frame level) s = .next (entered frame s) := by
  have hesp (t : State) (v : Word) : (t.setReg .ebp v).reg .esp = t.reg .esp := t.setReg_reg_of_ne v (by decide)
  simp only [exec, execEnter, push_of_canPush _ h, Res.andThen_done, Res.finish_done, hesp, pushed_reg_esp, entered]

/-- Settles O33: the push and the two register writes, or the push's fault; the decoder has refused a level first. -/
theorem enterResult : Obligations.EnterResult := by
  unfold Obligations.EnterResult
  obtain ⟨hrefused, -, -⟩ := enterLevelPolicies
  refine fun frame level s => ⟨rfl, fun hc => ?_, fun hc => pushFaults_of_push_andThen _ hc _,
    fun hlevel rest => hrefused _ _ _ rest hlevel⟩
  have hframe := entered_frame frame s
  exact ⟨entered frame s, exec_enter_of_canPush frame level hc, entered_reg_ebp frame s, entered_reg_esp frame s,
    hframe.regs, hframe.eip, pushed_storedAt (s.reg .ebp) s, hframe.rest⟩

/-! ### pop r32 -/

/-- `58+rd`: the opcode's five bits and the register's three are the sum (R121). -/
theorem popReg_byte (r : Reg32) : 0b01011#5 ++ r.toBits = BitVec.ofNat 8 (0x58 + r.toBits.toNat) := by
  cases r <;> rfl

/-- The state after a `pop r32` that completes: the register is written last (R198). -/
def popped (r : Reg32) (s : State) : State :=
  (s.setReg .esp (s.reg .esp + 4#32)).setReg r (s.mem.read32 (s.reg .esp).toNat)

theorem exec_popR32_of_inBounds (r : Reg32) {s : State} (h : s.mem.inBounds (s.reg .esp).toNat 4) :
    exec (.popR32 r) s = .next (popped r s) := by
  rw [exec, execPopR32, pop_eq_done.2 ⟨h, rfl, rfl⟩, Res.andThen_done, Res.finish_done, popped]

theorem exec_popR32_of_not_inBounds (r : Reg32) {s : State} (h : ¬ s.mem.inBounds (s.reg .esp).toNat 4) :
    exec (.popR32 r) s = .fault (.memoryFault (s.reg .esp) .dword .read s) := by
  rw [exec, execPopR32, pop_of_not_inBounds h, Res.andThen_raised, Res.finish_raised]
  rfl

theorem popped_reg_esp {r : Reg32} (h : r ≠ .esp) (s : State) : (popped r s).reg .esp = s.reg .esp + 4#32 := by
  rw [popped, State.setReg_reg_of_ne _ _ h.symm, State.setReg_reg_self]

/-- The frame of `pop r32`: esp and the register, and no byte of memory. -/
theorem popped_frame (r : Reg32) (s : State) : Frame [.esp, r] none s (popped r s) :=
  ((Frame.refl s).setReg (by simp) _).setReg (by simp) _

/-- Settles O38: esp is raised and then the register written, so `pop esp` leaves the word read. -/
theorem popR32Result : Obligations.PopR32Result := by
  unfold Obligations.PopR32Result
  refine fun r s => ⟨by rw [encode, popReg_byte], fun hb => ?_, exec_popR32_of_not_inBounds r⟩
  have hframe := popped_frame r s
  exact ⟨popped r s, _, exec_popR32_of_inBounds r hb, readsAs_read32 s.mem _, State.setReg_reg_self _ _ _,
    (popped_reg_esp · s), hframe.regs, hframe.eip, rfl, hframe.rest⟩

end Sys2Proof.Machine
end

section
/-! Control transfer (42_control_transfer.md R220 to R230): the call that call rel32 and call [mem] share, call [mem] up
to its slot's value and then for each import entry, ret, jmp rel32, the registration of an import, and an eip outside
memory. -/

namespace Sys2Proof.Machine

open Sys2Proof.Safety

/-! ### call rel32 -/

/-- The state a completed call leaves differs from the one before as R221 says. -/
theorem setEip_pushed_called (target : Word) (s : State) : Called s ((pushed s.eip s).setEip target) target := by
  obtain ⟨hesp, hregs, -, hstored, hrest⟩ := pushed_spec s.eip s
  exact ⟨hesp, hregs, rfl, hstored, hrest⟩

/-- With room below esp a call completes (R221, R224). -/
theorem exists_next_of_callTo (target : Word) {s : State} (h : CanPush s) :
    ∃ t, (callTo target s).finish = .next t ∧ Called s t target :=
  ⟨_, Res.finish_eq_next.2 (callTo_eq_done.2 ⟨h, rfl⟩), setEip_pushed_called target s⟩

/-- Without room a call is the push's fault: eip is not replaced. -/
theorem pushFaults_of_callTo (target : Word) {s : State} (h : ¬ CanPush s) : PushFaults s (callTo target s).finish :=
  pushFaults_of_push_andThen s.eip h _

/-- Settles O39: the rule is one call of the near-branch target. -/
theorem callRel32Result : Obligations.CallRel32Result := by
  unfold Obligations.CallRel32Result
  exact fun rel s => ⟨rfl, exists_next_of_callTo (s.eip + rel), pushFaults_of_callTo (s.eip + rel)⟩

/-! ### call [mem], up to the slot's value -/

section
variable {m : MemOperand} {s : State} {slot target : Word}

/-- A slot out of bounds is the read's fault, with nothing changed (R222). -/
theorem callM32With_of_not_inBounds (sem : HandlerSem) (hea : effectiveAddress (memParts m) s = .ok slot)
    (hb : ¬ s.mem.inBounds slot.toNat 4) : callM32With sem m s = .fault (.memoryFault slot .dword .read s) := by
  rw [callM32With, resolve_eq_done.2 ⟨hea, rfl⟩, Res.andThen_done, memRead_of_not_inBounds hb, Res.andThen_raised,
    Res.finish_raised]
  rfl

/-- With its slot in bounds, call [mem] is the import multiplexer on the slot's value (R222). -/
theorem callM32With_of_readsAs (sem : HandlerSem) (hea : effectiveAddress (memParts m) s = .ok slot)
    (hb : s.mem.inBounds slot.toNat 4) (hslot : ReadsAs s.mem slot target) :
    callM32With sem m s = (callThrough sem slot target s).finish := by
  rw [callM32With, resolve_eq_done.2 ⟨hea, rfl⟩, Res.andThen_done, memRead_of_readsAs hb hslot, Res.andThen_done]

/-- Of a target that is no import, call [mem] is an ordinary call (R224). -/
theorem exec_callM32_of_absent (hea : effectiveAddress (memParts m) s = .ok slot) (hb : s.mem.inBounds slot.toNat 4)
    (hslot : ReadsAs s.mem slot target) (h : importLookup s.imports target = .absent) :
    exec (.callM32 m) s = (callTo target s).finish := by
  rw [exec, execCallM32, callM32With_of_readsAs _ hea hb hslot, callThrough_of_absent h]

end

/-- Settles O40: the address and the slot's read, each with its fault, in the order of the rule. -/
theorem callM32SlotFaults : Obligations.CallM32SlotFaults := by
  unfold Obligations.CallM32SlotFaults
  exact fun m s => ⟨rfl, fun pol b rest hb => decode_FF_of_register pol (by omega) rest,
    fun _ hea => violationHalts_of_effectiveAddress hea _, fun _ => callM32With_of_not_inBounds Config.handlerSem⟩

/-! ### call [mem] of a target that is no import -/

/-- Settles O41: the call of the slot's value completes or faults as the call of call rel32 does. -/
theorem callM32AbsentResult : Obligations.CallM32AbsentResult := by
  unfold Obligations.CallM32AbsentResult
  intro m s slot target hea hb hslot h
  rw [exec_callM32_of_absent hea hb hslot h]
  exact ⟨exists_next_of_callTo target, pushFaults_of_callTo target⟩

/-- Settles O42: both are the call of the same target. -/
theorem callM32AbsentIsCallRel32 : Obligations.CallM32AbsentIsCallRel32 := by
  unfold Obligations.CallM32AbsentIsCallRel32
  rintro m s slot target rel hea hb hslot h rfl
  rw [exec_callM32_of_absent hea hb hslot h, exec, execCallRel32, nearTarget]

/-! ### call [mem] of an import -/

/-- Settles O43: the multiplexer's one write is the event. -/
theorem callM32UnhandledResult : Obligations.CallM32UnhandledResult := by
  unfold Obligations.CallM32UnhandledResult
  intro m s slot target hea hb hslot h
  rw [exec, execCallM32, callM32With_of_readsAs _ hea hb hslot, callThrough_of_unhandled h, Res.finish_done]
  rfl

/-- An import with a handler is the handler's invocation, and nothing is pushed (R225). -/
theorem callThrough_of_handler {sem : HandlerSem} {slot target : Word} {s : State} {h : HandlerId}
    (hl : importLookup s.imports target = .handler h) : callThrough sem slot target s = invoke sem h s := by
  unfold callThrough; rw [hl]

section
variable {sem : HandlerSem} {h : HandlerId} {s : State} {l : HandlerLeft}

/-- A handler that returns completes the rule with what it left (R225). -/
theorem invoke_of_returned (hret : sem h s.handlerDraw s = .returned l) :
    invoke sem h s = .done () (s.afterHandler l) := by
  unfold invoke; rw [hret]

/-- A handler that fails ends the rule on what it left (R170, R226). -/
theorem invoke_of_failed (hfail : sem h s.handlerDraw s = .failed l) :
    invoke sem h s = .raised (.hostFailure h) (s.afterHandler l) := by
  unfold invoke; rw [hfail]

end

/-- Settles O44: the rule is the handler's invocation, and the core writes at most `status` after it. -/
theorem callM32HandlerResult : Obligations.CallM32HandlerResult := by
  unfold Obligations.CallM32HandlerResult
  refine ⟨fun _ _ => rfl, fun sem m s slot target h l hea hb hslot hl => ?_⟩
  have hcall : callM32With sem m s = (invoke sem h s).finish := by
    rw [callM32With_of_readsAs sem hea hb hslot, callThrough_of_handler hl]
  refine ⟨fun hret => ⟨s.afterHandler l, ?_, rfl, rfl, rfl, rfl, rfl, rfl, rfl, rfl, rfl⟩,
    fun hfail => ⟨(s.afterHandler l).setStatus (.halted (.hostFailure h)), ?_, rfl, rfl, rfl, rfl, rfl, rfl⟩⟩
  · rw [hcall, invoke_of_returned hret, Res.finish_done]
  · rw [hcall, invoke_of_failed hfail, Res.finish_raised]
    rfl

/-! ### ret -/

/-- With the word at esp in bounds, ret goes to it and raises esp, whatever eip was (R228). -/
theorem exec_ret_of_readsAs {v : Word} {s : State} (hb : s.mem.inBounds (s.reg .esp).toNat 4)
    (h : ReadsAs s.mem (s.reg .esp) v) : exec .ret s = .next ((s.setReg .esp (s.reg .esp + 4#32)).setEip v) := by
  rw [exec, execRet, pop_of_readsAs hb h, Res.andThen_done, Res.finish_done]

theorem exec_ret_of_not_inBounds {s : State} (h : ¬ s.mem.inBounds (s.reg .esp).toNat 4) :
    exec .ret s = .fault (.memoryFault (s.reg .esp) .dword .read s) := by
  rw [exec, execRet, pop_of_not_inBounds h, Res.andThen_raised, Res.finish_raised]
  rfl

/-- Settles O45: the frame is that of the write of esp. -/
theorem retResult : Obligations.RetResult := by
  unfold Obligations.RetResult
  refine fun s => ⟨rfl, fun pol rest => decode_of_opcode_eq_none pol (by decide) rest, fun hb => ?_,
    exec_ret_of_not_inBounds⟩
  have hword := readsAs_read32 s.mem (s.reg .esp)
  obtain ⟨hesp, hregs, -, hmem, hrest⟩ := onlyReg_setReg s .esp (s.reg .esp + 4#32)
  exact ⟨_, _, exec_ret_of_readsAs hb hword, hword, rfl, hesp, hregs, hmem, hrest⟩

/-- Raising esp after a push restores every general register (R192). -/
theorem pushed_setReg_esp_gpr (v : Word) (s : State) :
    ((pushed v s).setReg .esp ((pushed v s).reg .esp + 4#32)).gpr = s.gpr := by
  obtain ⟨hesp, hregs, -⟩ := pushed_spec v s
  refine GprFile.ext_get fun r => ?_
  by_cases hr : r = .esp
  · rw [hr, hesp, BitVec.sub_add_cancel]
    exact State.setReg_reg_self _ _ _
  · exact (State.setReg_reg_of_ne _ _ hr).trans (hregs r (by simpa using hr))

/-- Settles O46: the word at the lowered esp is the return address the call pushed. -/
theorem retAfterCallReturns : Obligations.RetAfterCallReturns := by
  unfold Obligations.RetAfterCallReturns
  intro rel ip s t hcall
  obtain ⟨hroom, rfl⟩ := callTo_eq_done.1 (Res.finish_eq_next.1 hcall)
  have hesp := pushed_reg_esp s.eip s
  have hb : (pushed s.eip s).mem.inBounds ((pushed s.eip s).reg .esp).toNat 4 := hesp ▸ pushed_inBounds s.eip hroom
  have hword : ReadsAs (pushed s.eip s).mem ((pushed s.eip s).reg .esp) s.eip := hesp ▸ pushed_readsAs s.eip s
  exact ⟨_, exec_ret_of_readsAs hb hword, rfl, pushed_setReg_esp_gpr s.eip s, rfl⟩

/-! ### jmp rel32 -/

/-- Settles O47: the rule's one write is that of eip. -/
theorem jmpRel32Result : Obligations.JmpRel32Result := by
  unfold Obligations.JmpRel32Result
  exact fun rel s => ⟨rfl, fun pol rest => decode_of_opcode_eq_none pol (by decide) rest,
    s.setEip (s.eip + rel), rfl, BitVec.toNat_add s.eip rel, rfl, rfl, rfl, rfl, rfl, rfl, rfl, rfl, rfl⟩

/-! ### The import table -/

/-- Taking out the entries of one key leaves every other key's answer (R223). -/
theorem importLookup_filter_ne {key target : Word} (h : target ≠ key) (t : ImportTable) :
    importLookup (t.filter fun e => e.1 != key) target = importLookup t target := by
  induction t with
  | nil => rfl
  | cons e rest ih =>
    by_cases he : e.1 = key
    · have hother : e.1 ≠ target := fun ht => h (ht.symm.trans he)
      rw [List.filter_cons_of_neg (by simp [he]), ih, importLookup, if_neg hother]
    · rw [List.filter_cons_of_pos (by simpa using he), importLookup, importLookup, ih]

/-- Settles O59: the new entry stands first, and what it replaces has its key. -/
theorem registeredImportIsFound : Obligations.RegisteredImportIsFound := by
  unfold Obligations.RegisteredImportIsFound
  intro key target b s
  rw [hostRegisterImport, importLookup]
  by_cases h : target = key
  · rw [if_pos h.symm, if_pos h]
  · rw [if_neg (Ne.symm h), if_neg h, importLookup_filter_ne h]

/-! ### An eip outside memory -/

/-- Stage 1 raises a fetch fault at the window's end where the decoder needs a byte more (R164). -/
theorem fetchDecode_of_short {s : State} (h : decode s.policies.enterLevel (fetchWindow s) = .short) :
    fetchDecode s = .raised (.memoryFault (s.eip + BitVec.ofNat 32 (fetchWindow s).length) .byte .fetch) := by
  unfold fetchDecode; rw [h]

/-- With eip out of bounds the window is empty (R75). -/
theorem fetchWindow_of_not_inBounds {s : State} (h : ¬ s.mem.inBounds s.eip.toNat 1) : fetchWindow s = [] := by
  simp [fetchWindow, maxLength, fetchFrom, Memory.fetchByte_of_not_inBounds h]

/-- Settles O13: the decoder has no byte to read, so the byte it needs is the one at eip. -/
theorem eipOutsideMemoryFaults : Obligations.EipOutsideMemoryFaults := by
  unfold Obligations.EipOutsideMemoryFaults
  intro s hs h
  have hwindow := fetchWindow_of_not_inBounds h
  have hfetch : fetchDecode s = .raised (.memoryFault s.eip .byte .fetch) := by
    simpa [hwindow] using fetchDecode_of_short (s := s) (by rw [hwindow, decode])
  exact step_of_raised hs hfetch

end Sys2Proof.Machine
end

section
/-! Data movement (43_data_movement.md R250 to R255): how a rule that is one write to memory ends, then each
instruction. -/

namespace Sys2Proof.Machine

open Sys2Proof.Safety

/-! ### A rule that is one write -/

/-- Replacing memory leaves every field outside the general registers, eip and memory as before. -/
theorem sameRest_setMem (s : State) (m : Memory) : SameRest s (s.setMem m) :=
  ⟨rfl, rfl, rfl, rfl, rfl, rfl, rfl⟩

/-- A rule that is one write in bounds completes with the word stored and every other field as before (R74). -/
theorem exists_next_of_memWrite {a : Word} (v : Word) {s : State} (hb : s.mem.inBounds a.toNat 4) :
    ∃ t, (memWrite a v s).finish = .next t ∧ StoredAt s.mem t.mem a v ∧ t.gpr = s.gpr ∧ t.eip = s.eip ∧
      SameRest s t :=
  ⟨s.setMem (s.mem.write32 a.toNat v), Res.finish_eq_next.2 (memWrite_eq_done.2 ⟨hb, rfl⟩),
    storedAt_write32 s.mem a v, rfl, rfl, sameRest_setMem s _⟩

/-- A rule that is one write out of bounds is the write's fault, with nothing changed (R74, R168). -/
theorem memWrite_finish_of_not_inBounds {a : Word} (v : Word) {s : State} (hb : ¬ s.mem.inBounds a.toNat 4) :
    (memWrite a v s).finish = .fault (.memoryFault a .dword .write s) := by
  rw [memWrite_of_not_inBounds v hb, Res.finish_raised]
  rfl

/-! ### mov [mem], imm32 -/

/-- No row of R123 is one of the bytes `B8+rd`. -/
theorem opcode_firstByte_of_B8 (b : Byte) : b.toNat / 8 = 0xB8 / 8 → (firstByte b).opcode = none := by
  revert b; decide

/-- With its address resolved, mov [mem], imm32 is one write of the immediate (R250). -/
theorem exec_movM32Imm32_of_effectiveAddress {m : MemOperand} {s : State} {a : Word} (imm : Word)
    (hea : effectiveAddress (memParts m) s = .ok a) : exec (.movM32Imm32 m imm) s = (memWrite a imm s).finish := by
  rw [exec, execMovM32Imm32, resolve_eq_done.2 ⟨hea, rfl⟩, Res.andThen_done]

/-- Settles O48: the address and the write, each with its fault, in the order of the rule. -/
theorem movM32Imm32Result : Obligations.MovM32Imm32Result := by
  unfold Obligations.MovM32Imm32Result
  refine fun m imm s => ⟨rfl, fun pol b rest => ⟨fun hb => ?_, fun hb => ?_⟩,
    fun k hea => violationHalts_of_effectiveAddress hea _, fun a hea => ?_⟩
  · have hmod : b.toNat / 64 = 3 := by omega
    exact (modRMRefusedExactly pol 0xC7#8 b rest (by decide)).2 (by simp [hmod])
  · exact decode_of_opcode_eq_none pol (opcode_firstByte_of_B8 b hb) rest
  · rw [exec_movM32Imm32_of_effectiveAddress imm hea]
    exact ⟨exists_next_of_memWrite imm, memWrite_finish_of_not_inBounds imm⟩

/-! ### The two moves of eax and [moffs32] -/

/-- Under every policy mov [moffs32], eax is one write of eax at the instruction's own address (R86, R251). -/
theorem exec_movMoffs32Eax (moffs : Word) (s : State) :
    exec (.movMoffs32Eax moffs) s = (memWrite moffs (s.reg .eax) s).finish := by
  rw [exec, execMovMoffs32Eax, resolve_moffs, Res.andThen_done]

/-- Settles O49: the rule is the write, in bounds or out. -/
theorem movMoffs32EaxResult : Obligations.MovMoffs32EaxResult := by
  unfold Obligations.MovMoffs32EaxResult
  refine fun moffs s => ⟨rfl, fun pol rest => decode_of_opcode_eq_none pol (by decide) rest, ?_⟩
  rw [exec_movMoffs32Eax]
  exact ⟨exists_next_of_memWrite (s.reg .eax), memWrite_finish_of_not_inBounds (s.reg .eax)⟩

/-- The address of a moffs32 field is the field, under every policy (R86). -/
theorem effectiveAddress_moffs (d : Word) (s : State) : effectiveAddress (moffsParts d) s = .ok d :=
  effectiveAddress_plain d s

/-- With its word in bounds, mov eax, [moffs32] writes it to eax, under every policy (R86, R252). -/
theorem exec_movEaxMoffs32_of_inBounds {moffs : Word} {s : State} (hb : s.mem.inBounds moffs.toNat 4) :
    exec (.movEaxMoffs32 moffs) s = .next (s.setReg .eax (s.mem.read32 moffs.toNat)) := by
  rw [exec, execMovEaxMoffs32, readOperand_of_effectiveAddress (effectiveAddress_moffs moffs s) hb, Res.finish_done]

/-- Settles O50: the word read is the one at the instruction's own address, and eax is the one register written. -/
theorem movEaxMoffs32Result : Obligations.MovEaxMoffs32Result := by
  unfold Obligations.MovEaxMoffs32Result
  refine fun moffs s => ⟨rfl, fun pol rest => decode_of_opcode_eq_none pol (by decide) rest, fun hb => ?_,
    fun hb => ?_⟩
  · exact ⟨_, _, exec_movEaxMoffs32_of_inBounds hb, readsAs_read32 s.mem moffs, onlyReg_setReg s .eax _⟩
  · exact readFault_of_effectiveAddress (effectiveAddress_moffs moffs s) hb _

/-! ### The two register moves -/

/-- With mod = 11 the ModRM byte is the sum of its fields in their places (R113). -/
theorem fieldsByte_three (reg rm : BitVec 3) :
    fieldsByte 3#2 reg rm = BitVec.ofNat 8 (0xC0 + 8 * reg.toNat + rm.toNat) := by
  revert reg rm; decide

/-- Settles O51: each form is one register write; the two differ in which field of the ModRM byte is the destination. -/
theorem registerMoveResults : Obligations.RegisterMoveResults := by
  unfold Obligations.RegisterMoveResults
  intro dst src s
  have hmove := onlyReg_setReg s dst (s.reg src)
  refine ⟨by rw [encode, fieldsByte_three], by rw [encode, fieldsByte_three],
    fun pol b rest hb => ⟨?_, ?_⟩, ⟨_, rfl, hmove⟩, _, rfl, hmove⟩
  · exact (modRMRefusedExactly pol 0x89#8 b rest (by decide)).2 (by simp [hb])
  · exact (modRMRefusedExactly pol 0x8B#8 b rest (by decide)).2 (by simp [hb])

/-! ### lea -/

/-- With its address resolved, lea writes the address to the register, whatever memory holds there (R255). -/
theorem exec_leaR32M_of_effectiveAddress (dst : Reg32) {m : MemOperand} {s : State} {a : Word}
    (hea : effectiveAddress (memParts m) s = .ok a) : exec (.leaR32M dst m) s = .next (s.setReg dst a) := by
  rw [exec, execLeaR32M, resolve_eq_done.2 ⟨hea, rfl⟩, Res.andThen_done, Res.finish_done]

/-- Settles O52: the address's violation, or one register write. -/
theorem leaResult : Obligations.LeaResult := by
  unfold Obligations.LeaResult
  refine fun dst m s => ⟨rfl, fun pol b rest hb => ?_, fun k hea => violationHalts_of_effectiveAddress hea _,
    fun a hea => ?_⟩
  · exact (modRMRefusedExactly pol 0x8D#8 b rest (by decide)).2 (by simp [hb])
  · exact ⟨_, exec_leaR32M_of_effectiveAddress dst hea, onlyReg_setReg s dst a⟩

end Sys2Proof.Machine
end

section
/-! ALU (44_alu.md R280 to R282): and and sub, each one register write with no condition on the state. -/

namespace Sys2Proof.Machine

open Sys2Proof.Safety

/-- Settles O53: `E0+r` is the ModRM byte with reg = 4, and each value of the policy fixes the mask. -/
theorem andResult : Obligations.AndResult := by
  unfold Obligations.AndResult
  intro r imm s
  have hencode : encode (.andR32Imm8 r imm) = [0x83#8, BitVec.ofNat 8 (0xE0 + r.toBits.toNat), imm] := by
    rw [encode, fieldsByte_three]
    rfl
  refine ⟨hencode, fun pol b rest hb => ?_, _, extend8 s.policies.andImm8Ext imm, rfl, onlyReg_setReg s r _,
    fun hzero => hzero ▸ toNat_extend8_zero imm, fun hsign => hsign ▸ toInt_extend8_sign imm⟩
  exact (modRMRefusedExactly pol 0x83#8 b rest (by decide)).2 (by simp [hb])

/-- Settles O54: `E8+r` is the ModRM byte with reg = 5, which the group 83 has no row for. -/
theorem subResult : Obligations.SubResult := by
  unfold Obligations.SubResult
  intro r imm s
  have hencode : encode (.subR32Imm32 r imm) =
      [0x81#8, BitVec.ofNat 8 (0xE8 + r.toBits.toNat), byteOf imm 0, byteOf imm 1, byteOf imm 2, byteOf imm 3] := by
    rw [encode, fieldsByte_three]
    rfl
  refine ⟨hencode, fun pol b rest => ⟨fun hmod => ?_, fun hreg => ?_⟩, _, s.reg r - imm, rfl, onlyReg_setReg s r _,
    BitVec.toNat_sub' (s.reg r) imm⟩
  · exact (modRMRefusedExactly pol 0x81#8 b rest (by decide)).2 (by simp [hmod])
  · exact (modRMRefusedExactly pol 0x83#8 b rest (by decide)).2 (by simp [hreg])

end Sys2Proof.Machine
end

section
/-! Exceptions (60_exceptions.md R300 to R309): the machine on which an instruction raises, and from it what a memory
fault and a contract violation of a step leave. -/

namespace Sys2Proof.Machine

/-! ### The machine on which an instruction raises -/

/-- What an instruction started on `s` can raise, and on which machine `t`: a memory fault of an access out of bounds,
with nothing but esp written (R168, R302); an address's violation, with nothing written (R303); or a handler's failure,
with whatever the handler left (R226). -/
def RaiseFrom (s : State) : Raise → State → Prop
  | .unsupportedInstruction _ _, _ => False
  | .memoryFault a w k, t =>
    ¬ s.mem.inBounds a.toNat 4 ∧ w = .dword ∧ k ≠ .fetch ∧ t.setReg .esp (s.reg .esp) = s
  | .contractViolation k, t => k ≠ .unsupportedRegister ∧ t = s
  | .hostFailure _, _ => True

/-- If a primitive or a rule raises, it is as `RaiseFrom s` says. -/
def Res.RaisesFrom {α : Type} (s : State) : Res α → Prop
  | .done _ _ => True
  | .raised r t => RaiseFrom s r t

section
variable {s : State} {α : Type}

/-- A sequence raises from `s` when both its parts do. -/
theorem Res.RaisesFrom.andThen {β : Type} {x : Res α} {f : α → State → Res β} (hx : x.RaisesFrom s)
    (hf : ∀ v t, x = .done v t → (f v t).RaisesFrom s) : (x.andThen f).RaisesFrom s := by
  cases x with
  | done v t => exact hf v t rfl
  | raised r t => exact hx

/-- The resolver changes nothing, so what follows it runs on the same machine (R84, R87). -/
theorem resolve_andThen_raisesFrom (p : MemParts) {f : Word → State → Res α} (hf : ∀ a, (f a s).RaisesFrom s) :
    ((resolve p s).andThen f).RaisesFrom s := by
  rcases resolve_cases p s with ⟨a, -, e⟩ | ⟨k, hk, e⟩ <;> rw [e]
  · exact hf a
  · exact ⟨fun hu => effectiveAddress_ne_unsupported p s (hu ▸ hk), rfl⟩

/-- `MemRead` changes nothing, so what follows it runs on the same machine (R73). -/
theorem memRead_andThen_raisesFrom (a : Word) {f : Word → State → Res α} (hf : ∀ v, (f v s).RaisesFrom s) :
    ((memRead a s).andThen f).RaisesFrom s := by
  rcases memRead_cases a s with ⟨-, e⟩ | ⟨hb, e⟩ <;> rw [e]
  · exact hf _
  · exact ⟨hb, rfl, nofun, rfl⟩

theorem memWrite_raisesFrom (a v : Word) : (memWrite a v s).RaisesFrom s := by
  rcases memWrite_cases a v s with ⟨-, e⟩ | ⟨hb, e⟩ <;> rw [e]
  · trivial
  · exact ⟨hb, rfl, nofun, rfl⟩

/-- A push that faults has only lowered esp (R190). -/
theorem push_raisesFrom (v : Word) : (push v s).RaisesFrom s := by
  rcases push_cases v s with ⟨-, e⟩ | ⟨hb, e⟩ <;> rw [e]
  · trivial
  · exact ⟨hb, rfl, nofun, rfl⟩

theorem pop_raisesFrom : (pop s).RaisesFrom s :=
  memRead_andThen_raisesFrom _ fun _ => trivial

theorem callTo_raisesFrom (target : Word) : (callTo target s).RaisesFrom s :=
  (push_raisesFrom s.eip).andThen fun _ _ _ => trivial

theorem callThrough_raisesFrom (sem : HandlerSem) (slot target : Word) :
    (callThrough sem slot target s).RaisesFrom s := by
  rcases callThrough_cases sem slot target s with ⟨-, e⟩ | ⟨id, -, e⟩ | ⟨-, e⟩ <;> rw [e]
  · exact callTo_raisesFrom target
  · rcases invoke_cases sem id s with ⟨l, -, e'⟩ | ⟨l, -, e'⟩ <;> rw [e'] <;> trivial
  · trivial

/-- Every instruction raises from the machine it starts on: before its last operation that can raise, it has written
nothing but a push's esp and what a handler left. -/
theorem exec_eq_finish_raisesFrom (i : Instr) (s : State) : ∃ x : Res Unit, exec i s = x.finish ∧ x.RaisesFrom s := by
  cases i with
  | enter frame level => exact ⟨_, rfl, (push_raisesFrom _).andThen fun _ _ _ => trivial⟩
  | callRel32 rel => exact ⟨_, rfl, callTo_raisesFrom _⟩
  | callM32 m =>
    exact ⟨_, rfl, resolve_andThen_raisesFrom _ fun slot => memRead_andThen_raisesFrom slot fun target =>
      callThrough_raisesFrom Config.handlerSem slot target⟩
  | ret => exact ⟨_, rfl, pop_raisesFrom.andThen fun _ _ _ => trivial⟩
  | pushImm8 imm => exact ⟨_, rfl, push_raisesFrom _⟩
  | pushImm32 imm => exact ⟨_, rfl, push_raisesFrom imm⟩
  | pushR32 r => exact ⟨_, rfl, push_raisesFrom _⟩
  | pushM32 m =>
    exact ⟨_, rfl, resolve_andThen_raisesFrom _ fun a => memRead_andThen_raisesFrom a fun v => push_raisesFrom v⟩
  | popR32 r => exact ⟨_, rfl, pop_raisesFrom.andThen fun _ _ _ => trivial⟩
  | movM32Imm32 m imm => exact ⟨_, rfl, resolve_andThen_raisesFrom _ fun a => memWrite_raisesFrom a imm⟩
  | movMoffs32Eax moffs => exact ⟨_, rfl, resolve_andThen_raisesFrom _ fun a => memWrite_raisesFrom a _⟩
  | movEaxMoffs32 moffs =>
    exact ⟨_, rfl, resolve_andThen_raisesFrom _ fun a => memRead_andThen_raisesFrom a fun _ => trivial⟩
  | leaR32M dst m => exact ⟨_, rfl, resolve_andThen_raisesFrom _ fun _ => trivial⟩
  | jmpRel32 rel => exact ⟨.done () _, rfl, trivial⟩
  | movRm32R32 dst src | movR32Rm32 dst src => exact ⟨.done () _, rfl, trivial⟩
  | andR32Imm8 r imm | subR32Imm32 r imm => exact ⟨.done () _, rfl, trivial⟩

/-! ### A fault of a decoded instruction -/

/-- A fault that stage 1 cannot raise is, on a running machine, an instruction's, started with eip at next_ip (R166 to
R168). -/
theorem exists_decoded_of_step_eq_fault {f : Fault} (hs : s.status = .running) (h : step s = .fault f)
    (hf : f.raise.OfExec) :
    ∃ d r t, fetchDecode s = .decoded d ∧ RaiseFrom (s.setEip d.nextIp) r t ∧ f = r.fault (raiseLeft r t) := by
  cases hd : fetchDecode s with
  | raised r =>
    rw [step_of_raised hs hd] at h
    cases h
    rcases fetchDecode_raised_cases hd with ⟨bytes, -, rfl⟩ | ⟨-, rfl⟩
    · exact hf.elim
    · exact absurd rfl hf
  | decoded d =>
    obtain ⟨x, hx, hraises⟩ := exec_eq_finish_raisesFrom d.instr (s.setEip d.nextIp)
    rw [step_of_decoded hs hd, hx] at h
    obtain ⟨r, t, rfl, rfl⟩ := Res.finish_eq_fault.1 h
    exact ⟨d, r, t, rfl, hraises, rfl⟩

end

/-! ### The statements -/

/-- Only a running machine has a memory fault: a halted one repeats the outcome that halted it (R162). -/
theorem running_of_step_eq_memoryFault {s t : State} {a : Word} {w : AccessWidth} {k : AccessKind}
    (h : step s = .fault (.memoryFault a w k t)) : s.status = .running := by
  cases hs : s.status with
  | running => rfl
  | halted q =>
    rw [step_eq_fault_of_halted hs] at h
    cases q <;> cases h

/-- Settles O18: a fetch fault leaves the state as it was, and an instruction's fault has changed only eip and esp. -/
theorem memoryFaultCanBeRetried : Obligations.MemoryFaultCanBeRetried := by
  unfold Obligations.MemoryFaultCanBeRetried
  intro s t a w k h
  have ht : t.status = .running := (onlyHaltingOutcomesHalt s _ h).2 rfl
  by_cases hk : k = .fetch
  · subst hk
    obtain ⟨rfl, rfl, hb, -⟩ := fetchFaultIsPrecise s t a w h
    exact ⟨hb, by simp, ht, rfl⟩
  · obtain ⟨d, r, u, -, hraise, e⟩ := exists_decoded_of_step_eq_fault (running_of_step_eq_memoryFault h) h hk
    cases r <;> cases e
    obtain ⟨hb, rfl, -, hesp⟩ := hraise
    exact ⟨hb, by simp [hk], ht, congrArg (·.setEip s.eip) hesp⟩

/-- Settles O19: an instruction's violation is its address's, raised before anything is written. -/
theorem contractViolationChangesOnlyEipAndStatus : Obligations.ContractViolationChangesOnlyEipAndStatus := by
  unfold Obligations.ContractViolationChangesOnlyEipAndStatus
  intro s t k hs h
  obtain ⟨d, r, u, hd, hraise, e⟩ := exists_decoded_of_step_eq_fault hs h trivial
  cases r <;> cases e
  obtain ⟨hk, rfl⟩ := hraise
  exact ⟨hk, d, hd, rfl⟩

end Sys2Proof.Machine
end

section
/-! Construction (70_reset_and_hazards.md R340): `stepKeepsCanonicalMemory` says that a step keeps the canonical form of
memory; here, that a run begins with it. -/

namespace Sys2Proof.Machine

/-- The loader's `MEM_SIZE` is at most 2^32 (R8), and its listed bytes are put into canonical form. -/
theorem construct_mem_wf (p : LoadParams) : (construct p).mem.wf := by
  have hsize : p.memSize.val ≤ Config.maxMemSize := Nat.lt_succ_iff.1 p.memSize.isLt
  rw [construct_mem]
  exact Memory.wf_ofCells hsize p.memInit

/-- Settles O25: constructed memory is built from the listed bytes, and that of the reset state lists none. -/
theorem constructedMemoryIsCanonical : Obligations.ConstructedMemoryIsCanonical := by
  unfold Obligations.ConstructedMemoryIsCanonical
  exact ⟨construct_mem_wf, State.reset_mem_wf⟩

end Sys2Proof.Machine
end
